-- ==== Sys2Proof/Word.lean ====
section
/-! DEFINITION. The value types every rule uses: bytes, addresses and texts (spec/00_scope.md R4, R5). -/

namespace Sys2Proof

/-- An unsigned 8-bit value: the accumulator, a memory cell, an opcode byte (R4 `DATA_BITS`). -/
abbrev Byte := BitVec 8

/-- A memory address, an operand address or a program counter (R4 `ADDR_BITS`, `PC_BITS`). -/
abbrev Addr := BitVec 8

/-- A finite character string (R4 `Name`, D12; the text of state files and listings, R223, R228). -/
abbrev Text := List Char

end Sys2Proof
end

