-- ==== Sys2Proof/Config.lean ====
section
/-! DEFINITION. The implementation parameters of spec/00_scope.md R4, and the free values: what
spec/93_implementation_defined.md says to treat as `any value` (K1, K4). -/

namespace Sys2Proof.Config

/-- R4 `MEM_SIZE`: the number of memory cells, at addresses 0 to 255. -/
def memSize : Nat := 256

/-- R4 `INSTR_BYTES`: the length of every instruction. -/
def instrBytes : Nat := 2

/-- R4 `NUM_OPCODES`: the opcode values are 0 to 7. -/
def numOpcodes : Nat := 8

/-- R4 `NUM_SLOTS`: the two-byte instruction slots, at the even addresses. -/
def numSlots : Nat := memSize / instrBytes

/-- R4 `BP_CAPACITY`: the most entries the breakpoint table holds, the named parameter of D4 at its default 128. -/
def bpCapacity : Nat := numSlots

/-- Contents a moved-from block may be left with (R231, K1), before they are brought into the legal ranges. -/
structure AnyContents where
  acc     : Byte
  pc      : Addr
  mem     : List Byte
  cycles  : Nat
  entries : List (Nat × Text)
deriving DecidableEq, Repr, Inhabited

/-- FREE VALUE (K1, D21; log entry 8): what the `k`-th draw leaves in a moved-from block. It has no body:
nothing can be proved of it. -/
opaque movedFrom : Nat → AnyContents

/-- FREE VALUE (K4; log entry 7): which order of the breakpoint lines the `k`-th draw gives a saved file. It has
no body: nothing can be proved of it. -/
opaque saveOrder : Nat → Nat

end Sys2Proof.Config
end

