-- ==== Sys2Proof/Syntax.lean ====
section
/-! DEFINITION. The instruction set as syntax: the fetched word, the eight opcodes and the eight instructions
(spec/30_encoding.md R61, R63, R66). -/

namespace Sys2Proof

/-- The pair fetched from two consecutive cells (R61): the opcode byte at `PC`, the address byte at `PC+1`. -/
structure InstructionWord where
  opcode         : Byte
  operandAddress : Byte
deriving DecidableEq, Repr

/-- The eight opcodes, in the order of R63. -/
inductive Opcode where
  | add | and | orr | xor | ldr | str | jmp | jne
deriving DecidableEq, Repr

/-- The eight instructions (R66): a closed sum, each with one 8-bit operand address. -/
inductive Instr where
  | add (addr : Addr)
  | and (addr : Addr)
  | orr (addr : Addr)
  | xor (addr : Addr)
  | ldr (addr : Addr)
  | str (addr : Addr)
  | jmp (addr : Addr)
  | jne (addr : Addr)
deriving DecidableEq, Repr

end Sys2Proof
end

