-- ==== Sys2Proof/WellFormed.lean ====
section
/-! DEFINITION. Which terms of the syntax are legal. An `Instr` needs no check: every operand address in [0, 255]
is legal with every opcode (spec/30_encoding.md R63, R66), and its type holds no other. What can be ill-formed is
the fetched pair of bytes (R64). -/

namespace Sys2Proof

/-- The one check of R64: the opcode byte is one of the values 0 to 7. The address byte is never checked. -/
def InstructionWord.wellFormed (w : InstructionWord) : Bool :=
  decide (w.opcode.toNat < Config.numOpcodes)

end Sys2Proof
end

