-- ==== Sys2Proof/Decode.lean ====
section
/-! DEFINITION. Decoding and encoding (spec/30_encoding.md R60 to R66), the opcode table as rows of match and mask
(R63), and the same decoder on the numbers of spec/opcode_table.json. -/

namespace Sys2Proof

/-- The instruction with a given opcode and operand address (R66). -/
def Instr.ofOpcode (op : Opcode) (addr : Addr) : Instr :=
  match op with
  | .add => .add addr
  | .and => .and addr
  | .orr => .orr addr
  | .xor => .xor addr
  | .ldr => .ldr addr
  | .str => .str addr
  | .jmp => .jmp addr
  | .jne => .jne addr

/-- The opcode of an instruction (R6 `op`). -/
def Instr.opcode (i : Instr) : Opcode :=
  match i with
  | .add _ => .add
  | .and _ => .and
  | .orr _ => .orr
  | .xor _ => .xor
  | .ldr _ => .ldr
  | .str _ => .str
  | .jmp _ => .jmp
  | .jne _ => .jne

/-- The operand address of an instruction (R6 `addr`). -/
def Instr.addr (i : Instr) : Addr :=
  match i with
  | .add a => a
  | .and a => a
  | .orr a => a
  | .xor a => a
  | .ldr a => a
  | .str a => a
  | .jmp a => a
  | .jne a => a

/-- What decoding two bytes gives (R65): an instruction, or `Invalid`, named with the opcode byte at fault. -/
inductive Decoded where
  | instr (i : Instr)
  | invalid (opcode : Byte)
deriving DecidableEq, Repr

/-- R65 `Decode`: total on every pair of bytes. An opcode byte of 8 or more is invalid, whatever the address
byte holds (R64). -/
def decode (w : InstructionWord) : Decoded :=
  if w.opcode = 0x00 then .instr (.add w.operandAddress)
  else if w.opcode = 0x01 then .instr (.and w.operandAddress)
  else if w.opcode = 0x02 then .instr (.orr w.operandAddress)
  else if w.opcode = 0x03 then .instr (.xor w.operandAddress)
  else if w.opcode = 0x04 then .instr (.ldr w.operandAddress)
  else if w.opcode = 0x05 then .instr (.str w.operandAddress)
  else if w.opcode = 0x06 then .instr (.jmp w.operandAddress)
  else if w.opcode = 0x07 then .instr (.jne w.operandAddress)
  else .invalid w.opcode

/-- The opcode byte of each opcode, the first column of R63's table. -/
def Opcode.byte (op : Opcode) : Byte :=
  match op with
  | .add => 0x00
  | .and => 0x01
  | .orr => 0x02
  | .xor => 0x03
  | .ldr => 0x04
  | .str => 0x05
  | .jmp => 0x06
  | .jne => 0x07

/-- R65 `Encode`: the opcode byte, then the operand address byte. -/
def encode (i : Instr) : InstructionWord :=
  ⟨i.opcode.byte, i.addr⟩

/-- The bytes of a word as they lie in memory, the lower address first (spec/20_memory.md R41). -/
def InstructionWord.bytes (w : InstructionWord) : List Byte :=
  [w.opcode, w.operandAddress]

/-- The 16-bit notation `w = (opcode, addr)` of R61, `opcode * 256 + addr` (R5): the opcode in bits 15 to 8, the address
in bits 7 to 0 (D3). -/
def InstructionWord.toWord16 (w : InstructionWord) : BitVec 16 :=
  BitVec.ofNat 16 (w.opcode.toNat * 256 + w.operandAddress.toNat)

/-- The pair of bytes a 16-bit word of R61 stands for: its bits 15 to 8 and its bits 7 to 0. -/
def InstructionWord.ofWord16 (w : BitVec 16) : InstructionWord :=
  ⟨BitVec.ofNat 8 (w.toNat / 256), BitVec.ofNat 8 (w.toNat % 256)⟩

/-- One row of R63's table. -/
structure EncodingRow where
  opcode : Opcode
  bits   : BitVec 16
  mask   : BitVec 16
deriving DecidableEq, Repr

/-- R63's table: the eight rows with their match and mask columns. -/
def encodingTable : List EncodingRow :=
  [ ⟨.add, 0x0000, 0xFF00⟩, ⟨.and, 0x0100, 0xFF00⟩, ⟨.orr, 0x0200, 0xFF00⟩, ⟨.xor, 0x0300, 0xFF00⟩,
    ⟨.ldr, 0x0400, 0xFF00⟩, ⟨.str, 0x0500, 0xFF00⟩, ⟨.jmp, 0x0600, 0xFF00⟩, ⟨.jne, 0x0700, 0xFF00⟩ ]

/-- A word is the instruction of a row exactly when this holds (R63). -/
def EncodingRow.fits (r : EncodingRow) (w : BitVec 16) : Bool :=
  decide (w &&& r.mask = r.bits)

/-- The two bytes that `nbits` bits of a table word stand for: the table's one word has 16 bits (R61), and bits
above `nbits` are 0. -/
def tableWordBytes (nbits w : Nat) : InstructionWord :=
  .ofWord16 (BitVec.ofNat 16 (w % 2 ^ nbits))

/-- The instruction the decoder reads from a table word, none where it refuses. -/
def decodeTableWord (nbits w : Nat) : Option Instr :=
  match decode (tableWordBytes nbits w) with
  | .instr i => some i
  | .invalid _ => none

end Sys2Proof
end

