-- ==== Sys2Proof/Machine/State.lean ====
section
/-! DEFINITION. The block's state, the reasons a step can stop, and the state after creation (spec/10_state.md
R20 to R31, spec/60_exceptions.md R180, spec/70_reset_and_hazards.md R200). -/

namespace Sys2Proof.Machine

/-- The 256 cells of R23, as the cells that do not hold the reset value, addresses strictly rising. -/
abbrev Memory := List Host.Cell

/-- One breakpoint entry (R26). Any address in [0, 255], odd or even, and any name. -/
structure Breakpoint where
  address : Addr
  name    : Text
deriving DecidableEq, Repr

/-- R20: the block's state is the tuple (ACC, PC, MEM, CYCLES, BPT), and nothing else persists. -/
structure State where
  /-- `ACC` (R21), 8 bits. -/
  acc    : Byte
  /-- `PC` (R22), 8 bits, odd values included. -/
  pc     : Addr
  /-- `MEM` (R23), 256 cells of 8 bits. -/
  mem    : Memory
  /-- `CYCLES` (R25), a natural number that never wraps (D5). -/
  cycles : Nat
  /-- `BPT` (R26), a set of entries, listed by rising address so that equal sets are equal data (log entry 6). -/
  bpt    : List Breakpoint
deriving DecidableEq, Repr

/-- The two core faults of R180, with the information of D20. Both are raised by the step around an instruction,
never by an instruction; both leave the state as it was (R185). Safe: the spec gives exactly this stop. -/
inductive Fault where
  /-- Raised by a step at an even `PC` whose opcode byte is 8 or more (R181). Safe. -/
  | decodeError (pc : Addr) (opcode : Byte)
  /-- Raised by a step that starts with `PC` odd (R182). Safe. -/
  | alignmentError (pc : Addr)
deriving DecidableEq, Repr

/-- What the model would refuse to give a meaning to. No step ever answers with it: every instruction of R63 has
its meaning. -/
inductive Refusal where
  /-- An instruction without a meaning, raised by an arm of `exec`. Safe; no arm raises it. -/
  | notModelled (mnemonic : String)
deriving DecidableEq, Repr

/-- R200: the state at creation, the only reset. Every register 0, every cell 0, no breakpoint. -/
def State.reset : State :=
  { acc := 0, pc := 0, mem := [], cycles := 0, bpt := [] }

end Sys2Proof.Machine
end

