-- ==== Sys2Proof/Machine/Ops.lean ====
section
/-! DEFINITION. The named operations over memory and registers that every meaning is made of: the memory primitives
(spec/00_scope.md R7), the execute wrapper (spec/30_encoding.md R68), and the parts of a step (spec/50_execution_engine.md
R141 to R145, spec/60_exceptions.md R185). -/

namespace Sys2Proof.Machine

/-! ### Memory -/

/-- What a cell that the list does not name holds: the reset value of R23. -/
def Memory.resetByte : Byte := 0

/-- The byte at an address. -/
def Memory.read (m : Memory) (a : Addr) : Byte :=
  match m with
  | [] => Memory.resetByte
  | (k, v) :: m' => if k = a.toNat then v else Memory.read m' a

/-- The memory without its entry for an address: that cell at the reset value. -/
def Memory.erase (m : Memory) (a : Addr) : Memory :=
  m.filter fun c => decide (c.1 ≠ a.toNat)

/-- An entry put before the first entry of a higher address. -/
def Memory.place (m : Memory) (a : Addr) (v : Byte) : Memory :=
  match m with
  | [] => [(a.toNat, v)]
  | (k, w) :: m' => if a.toNat < k then (a.toNat, v) :: (k, w) :: m' else (k, w) :: Memory.place m' a v

/-- The memory with one cell set. Writing the reset value removes the entry, so equal memories are equal lists. -/
def Memory.write (m : Memory) (a : Addr) (v : Byte) : Memory :=
  if v = Memory.resetByte then m.erase a else (m.erase a).place a v

/-- The canonical form: addresses strictly rising and in the address space (R23), no entry at the reset value. -/
abbrev Memory.wf (m : Memory) : Prop :=
  m.Pairwise (fun c d => c.1 < d.1) ∧ ∀ c ∈ m, c.1 < Config.memSize ∧ c.2 ≠ Memory.resetByte

/-- The entries for the given bytes, the first at address `k`. -/
def Memory.ofBytesAt (k : Nat) (bytes : List Byte) : Memory :=
  match bytes with
  | [] => []
  | b :: bs => if b = Memory.resetByte then Memory.ofBytesAt (k + 1) bs else (k, b) :: Memory.ofBytesAt (k + 1) bs

/-- The memory that holds the given bytes from address 0 on; bytes past the last address are dropped. -/
def Memory.ofBytes (bytes : List Byte) : Memory :=
  Memory.ofBytesAt 0 (bytes.take Config.memSize)

/-- The 256 bytes in address order. -/
def Memory.bytes (m : Memory) : List Byte :=
  (List.range Config.memSize).map fun k => m.read (BitVec.ofNat 8 k)

/-! ### Updates of one piece of state -/

def State.withAcc (s : State) (v : Byte) : State := { s with acc := v }

def State.withPc (s : State) (a : Addr) : State := { s with pc := a }

def State.withMem (s : State) (m : Memory) : State := { s with mem := m }

def State.withCycles (s : State) (n : Nat) : State := { s with cycles := n }

def State.withBpt (s : State) (t : List Breakpoint) : State := { s with bpt := t }

/-- R7 `MemRead(a, 1)`. -/
def memRead (s : State) (a : Addr) : Byte := s.mem.read a

/-- R7 `MemWrite(a, 1, v)`, on the memory alone. -/
def memWrite (s : State) (a : Addr) (v : Byte) : Memory := s.mem.write a v

/-! ### The execute wrapper -/

/-- The raw results of R69: the accumulator and program counter before masking, and the memory after STR's write. -/
structure RawResult where
  acc : Int
  pc  : Int
  mem : Memory
deriving DecidableEq, Repr

/-- `v mod 256` for an integer, negative ones included (R5 "Masking"). -/
def maskToByte (v : Int) : Byte := BitVec.ofInt 8 v

/-- R68: the raw effect, then the advance by 2, unconditionally, then the mask of both registers. -/
def wrapRaw (r : RawResult) (s : State) : State :=
  ((s.withMem r.mem).withAcc (maskToByte r.acc)).withPc (maskToByte (r.pc + 2))

/-- R68 `Execute`: cannot fail; the counter and the breakpoint table are not its business (R232). -/
def executeRaw (r : RawResult) (s : State) : Host.Outcome State Fault Refusal :=
  .next (wrapRaw r s)

/-! ### The parts of a step -/

/-- R142: `PC` is odd, misaligned with the fixed 2-byte instruction width. -/
def pcMisaligned (s : State) : Bool := decide (s.pc.toNat % 2 = 1)

/-- R143: the bytes at `PC` and `PC+1`, the opcode byte first (R41). -/
def fetchWord (s : State) : InstructionWord :=
  ⟨memRead s s.pc, memRead s (s.pc + 1)⟩

/-- R145: the cycle counter goes up by 1. -/
def countCycle (s : State) : State := s.withCycles (s.cycles + 1)

/-- R145 around one executed instruction: a completed one is counted, a stop is passed on as it is. -/
def countCompleted (r : Host.Outcome State Fault Refusal) : Host.Outcome State Fault Refusal :=
  match r with
  | .next t => .next (countCycle t)
  | .fault f => .fault f
  | .refused e => .refused e

/-- TAKING A CORE FAULT (R185): no control is transferred inside the machine, nothing is saved, no mode changes, and
the state stays as it was before the step; the fault goes to the host. There is no return from it (R186). -/
def takeFault (f : Fault) : Host.Outcome State Fault Refusal := .fault f

/-- R182: what a step that starts with `PC` odd answers. -/
def takeAlignmentError (s : State) : Host.Outcome State Fault Refusal :=
  takeFault (.alignmentError s.pc)

/-- R181: what a step that fetches the illegal opcode byte `opcode` answers. -/
def takeDecodeError (s : State) (opcode : Byte) : Host.Outcome State Fault Refusal :=
  takeFault (.decodeError s.pc opcode)

/-- R152, and the check of R148: some entry has the address `PC`. Names play no part. -/
def isBreakpoint (s : State) : Bool := s.bpt.any fun e => decide (e.address = s.pc)

/-- The state in which the next fetch reads the given word: its bytes at `PC` and `PC+1`, with `PC` made even,
since a fetch needs it so (R142, R143). -/
def placeAtFetch (s : State) (w : InstructionWord) : State :=
  let p := s.pc &&& 0xFE
  (s.withPc p).withMem ((s.mem.write p w.opcode).write (p + 1) w.operandAddress)

end Sys2Proof.Machine
end

