-- ==== Sys2Proof/Machine/Operands.lean ====
section
/-! DEFINITION. The operand forms: the one addressing mode (spec/41_load_store.md R102), the jump target
(spec/42_control.md R122), and the construction of an instruction outside decode (spec/30_encoding.md R62). -/

namespace Sys2Proof.Machine

/-- `n mod 256` for a natural number: how every address argument is masked (R62, R153, R222). -/
def maskAddress (n : Nat) : Addr := BitVec.ofNat 8 n

/-- R62, R66: the host's `make` builds `Instr(op, n mod 256)`. -/
def make (op : Opcode) (n : Nat) : Instr := .ofOpcode op (maskAddress n)

/-- R102: direct addressing, the effective address is the operand address as it stands. -/
def effectiveAddress (addr : Addr) : Addr := addr

/-- The memory operand of ADD, AND, ORR, XOR and LDR: one byte at the effective address (R44). -/
def memoryOperand (addr : Addr) (s : State) : Byte := memRead s (effectiveAddress addr)

/-- R69, R70: a taken jump pre-subtracts 2, since the wrapper always adds 2. The target is absolute (R122). -/
def rawJumpTarget (addr : Addr) : Int := (addr.toNat : Int) - 2

end Sys2Proof.Machine
end

