-- ==== Sys2Proof/Machine/Alu.lean ====
section
/-! DEFINITION. ADD, AND, ORR and XOR (spec/40_alu.md R80 to R84): for each its raw effect, a row of R69's table, and its
meaning, the raw effect under the execute wrapper of R68. -/

namespace Sys2Proof.Machine

/-- Raw effect of ADD: the exact sum, in [0, 510] (R69, R84). -/
def rawAdd (addr : Addr) (s : State) : RawResult :=
  ⟨(s.acc.toNat : Int) + (memoryOperand addr s).toNat, s.pc.toNat, s.mem⟩

/-- Raw effect of AND (R69). -/
def rawAnd (addr : Addr) (s : State) : RawResult :=
  ⟨(s.acc &&& memoryOperand addr s).toNat, s.pc.toNat, s.mem⟩

/-- Raw effect of ORR (R69). -/
def rawOrr (addr : Addr) (s : State) : RawResult :=
  ⟨(s.acc ||| memoryOperand addr s).toNat, s.pc.toNat, s.mem⟩

/-- Raw effect of XOR (R69). -/
def rawXor (addr : Addr) (s : State) : RawResult :=
  ⟨(s.acc ^^^ memoryOperand addr s).toNat, s.pc.toNat, s.mem⟩

/-- ADD (R80). -/
def execAdd (addr : Addr) (s : State) : Host.Outcome State Fault Refusal := executeRaw (rawAdd addr s) s

/-- AND (R81). -/
def execAnd (addr : Addr) (s : State) : Host.Outcome State Fault Refusal := executeRaw (rawAnd addr s) s

/-- ORR (R82). -/
def execOrr (addr : Addr) (s : State) : Host.Outcome State Fault Refusal := executeRaw (rawOrr addr s) s

/-- XOR (R83). -/
def execXor (addr : Addr) (s : State) : Host.Outcome State Fault Refusal := executeRaw (rawXor addr s) s

end Sys2Proof.Machine
end

