-- ==== Sys2Proof/Machine/Flags.lean ====
section
/-! DEFINITION. Conditions. The block has no status flags (spec/10_state.md R24): the one condition is JNE's test of the
accumulator itself. -/

namespace Sys2Proof.Machine

/-- The condition of JNE (R24, R121): `ACC != 0`. -/
def accNonZero (s : State) : Bool := decide (s.acc ≠ 0)

end Sys2Proof.Machine
end

