-- ==== Sys2Proof/Machine/Control.lean ====
section
/-! DEFINITION. JMP and JNE (spec/42_control.md R120 to R122): raw effect (R69) and meaning (R68). -/

namespace Sys2Proof.Machine

/-- Raw effect of JMP (R69): `addr - 2`, as low as -2. -/
def rawJmp (addr : Addr) (s : State) : RawResult :=
  ⟨s.acc.toNat, rawJumpTarget addr, s.mem⟩

/-- Raw effect of JNE (R69): as JMP when `ACC != 0`, else none. -/
def rawJne (addr : Addr) (s : State) : RawResult :=
  ⟨s.acc.toNat, if accNonZero s then rawJumpTarget addr else s.pc.toNat, s.mem⟩

/-- JMP (R120). An odd target is not checked here. -/
def execJmp (addr : Addr) (s : State) : Host.Outcome State Fault Refusal := executeRaw (rawJmp addr s) s

/-- JNE (R121). -/
def execJne (addr : Addr) (s : State) : Host.Outcome State Fault Refusal := executeRaw (rawJne addr s) s

end Sys2Proof.Machine
end

