-- ==== Sys2Proof/Machine/LoadStore.lean ====
section
/-! DEFINITION. LDR and STR (spec/41_load_store.md R100 to R102): raw effect (R69) and meaning (R68). -/

namespace Sys2Proof.Machine

/-- Raw effect of LDR (R69): the loaded byte as it stands. -/
def rawLdr (addr : Addr) (s : State) : RawResult :=
  ⟨(memoryOperand addr s).toNat, s.pc.toNat, s.mem⟩

/-- Raw effect of STR (R69): the one raw effect that writes memory. -/
def rawStr (addr : Addr) (s : State) : RawResult :=
  ⟨s.acc.toNat, s.pc.toNat, memWrite s (effectiveAddress addr) s.acc⟩

/-- LDR (R100). -/
def execLdr (addr : Addr) (s : State) : Host.Outcome State Fault Refusal := executeRaw (rawLdr addr s) s

/-- STR (R101). -/
def execStr (addr : Addr) (s : State) : Host.Outcome State Fault Refusal := executeRaw (rawStr addr s) s

end Sys2Proof.Machine
end

