-- ==== Sys2Proof/Machine/Dispatch.lean ====
section
/-! DEFINITION. The dispatcher (spec/30_encoding.md R67): the full contract of R68 for each instruction, by its opcode
alone. -/

namespace Sys2Proof.Machine

def exec (i : Instr) (s : State) : Host.Outcome State Fault Refusal :=
  match i with
  | .add addr => Sys2Proof.Machine.execAdd addr s
  | .and addr => Sys2Proof.Machine.execAnd addr s
  | .orr addr => Sys2Proof.Machine.execOrr addr s
  | .xor addr => Sys2Proof.Machine.execXor addr s
  | .ldr addr => Sys2Proof.Machine.execLdr addr s
  | .str addr => Sys2Proof.Machine.execStr addr s
  | .jmp addr => Sys2Proof.Machine.execJmp addr s
  | .jne addr => Sys2Proof.Machine.execJne addr s

end Sys2Proof.Machine
end

