-- ==== Sys2Proof/Machine/Step.lean ====
section
/-! DEFINITION. One step of the execution engine (spec/50_execution_engine.md R140 to R145), and the state whose next
fetch reads a given word. -/

namespace Sys2Proof.Machine

/-- R141 `Step`: the alignment check, the fetch, the decode check, the execution and its count, in this order. The
breakpoint check that follows a step belongs to the run loop (R148). -/
def step (s : State) : Host.Outcome State Fault Refusal :=
  if pcMisaligned s then takeAlignmentError s
  else
    match decode (fetchWord s) with
    | .invalid opcode => takeDecodeError s opcode
    | .instr i => countCompleted (exec i s)

/-- `s` with the instruction of a table word stored where `step` fetches next (log entry 2). -/
def State.withFetchWord (s : State) (nbits w : Nat) : State :=
  placeAtFetch s (tableWordBytes nbits w)

end Sys2Proof.Machine
end

