-- ==== Sys2Proof/Machine/Breakpoints.lean ====
section
/-! DEFINITION. The breakpoint controller (spec/50_execution_engine.md R153 to R160) and the failures of commands
(spec/60_exceptions.md R180, R187). -/

namespace Sys2Proof.Machine

/-- The command failures of R180. They change no state (R187). -/
inductive CommandFailure where
  | breakpointConflict
  | breakpointFull
  | notFound
  | persistenceError
deriving DecidableEq, Repr

/-- The numeric code of a core fault (R180, D19). -/
def faultCode (f : Fault) : Nat :=
  match f with
  | .decodeError _ _ => 1
  | .alignmentError _ => 2

/-- The numeric code of a command failure (R180, D19). -/
def failureCode (f : CommandFailure) : Nat :=
  match f with
  | .breakpointConflict => 3
  | .breakpointFull => 4
  | .notFound => 5
  | .persistenceError => 6

/-- R26 (i), (ii), (iii): no two entries share an address or a name, and at most `BP_CAPACITY` entries. The list is
in its canonical order, addresses strictly rising (log entry 6), which says (i). -/
abbrev bptWf (t : List Breakpoint) : Prop :=
  t.Pairwise (fun d e => d.address.toNat < e.address.toNat) ∧ (t.map Breakpoint.name).Nodup ∧
    t.length ≤ Config.bpCapacity

/-- R30 and R26: what every state meets whenever the host can observe it. `ACC` and `PC` are in range by their type. -/
abbrev State.wf (s : State) : Prop := s.mem.wf ∧ bptWf s.bpt

/-- The set with one more entry, put before the first entry of a higher address. -/
def placeEntry (t : List Breakpoint) (e : Breakpoint) : List Breakpoint :=
  match t with
  | [] => [e]
  | d :: t' => if e.address.toNat < d.address.toNat then e :: d :: t' else d :: placeEntry t' e

/-- R153: some entry has the address or exactly the name. -/
def conflicts (t : List Breakpoint) (e : Breakpoint) : Bool :=
  t.any fun d => decide (d.address = e.address) || decide (d.name = e.name)

/-- R153, R154 on the table alone: the conflict test first, then the capacity test. -/
def insertEntry (t : List Breakpoint) (e : Breakpoint) : Except CommandFailure (List Breakpoint) :=
  if conflicts t e then .error .breakpointConflict
  else if Config.bpCapacity ≤ t.length then .error .breakpointFull
  else .ok (placeEntry t e)

/-- The entry that the arguments of `insert` stand for: the address masked mod 256 (R153). -/
def entryOf (n : Nat) (name : Text) : Breakpoint := ⟨maskAddress n, name⟩

/-- R153 `insert(n, name)`. -/
def insertBreakpoint (n : Nat) (name : Text) (s : State) : Except CommandFailure State :=
  match insertEntry s.bpt (entryOf n name) with
  | .ok t => .ok (s.withBpt t)
  | .error f => .error f

/-- R155 `find_by_address(n)`: a copy of the entry, or none. -/
def findByAddress (n : Nat) (s : State) : Option Breakpoint :=
  s.bpt.find? fun e => decide (e.address = maskAddress n)

/-- R156 `find_by_name(name)`: a copy of the entry, or none. -/
def findByName (name : Text) (s : State) : Option Breakpoint :=
  s.bpt.find? fun e => decide (e.name = name)

/-- R157 `delete_by_address(n)`; the argument is masked (D11). -/
def deleteByAddress (n : Nat) (s : State) : Except CommandFailure State :=
  match findByAddress n s with
  | some e => .ok (s.withBpt (s.bpt.filter fun d => decide (d.address ≠ e.address)))
  | none => .error .notFound

/-- R158 `delete_by_name(name)`: finds by name, then deletes by the entry's address. -/
def deleteByName (name : Text) (s : State) : Except CommandFailure State :=
  match findByName name s with
  | some e => deleteByAddress e.address.toNat s
  | none => .error .notFound

/-- R159 `count()`. -/
def countBreakpoints (s : State) : Nat := s.bpt.length

/-- R225: the entries of a state file inserted one after another, none of them refused. -/
def insertAll (t : List Breakpoint) (entries : List (Nat × Text)) : Except CommandFailure (List Breakpoint) :=
  match entries with
  | [] => .ok t
  | (n, name) :: es =>
    match insertEntry t (entryOf n name) with
    | .ok t' => insertAll t' es
    | .error f => .error f

/-- The entries inserted one after another, the refused ones left out: any list becomes a legal table. -/
def insertWhatFits (t : List Breakpoint) (entries : List (Nat × Text)) : List Breakpoint :=
  match entries with
  | [] => t
  | (n, name) :: es =>
    match insertEntry t (entryOf n name) with
    | .ok t' => insertWhatFits t' es
    | .error _ => insertWhatFits t es

end Sys2Proof.Machine
end

