-- ==== Sys2Proof/Machine/Persistence.lean ====
section
/-! DEFINITION. The state file: its text, its checks, loading and saving (spec/80_host_interface.md R223 to R227, with
D14, D15, D16 of spec/92_eei_decisions.md). -/

namespace Sys2Proof.Machine

/-- LF (0x0A), which ends every line (R223, R229). -/
def lf : Char := '\n'

/-- The lines of a text: one LF after the last line is allowed and starts no new line (R223). -/
def splitLines (x : Text) : List Text :=
  match x with
  | [] => []
  | c :: cs =>
    if c = lf then [] :: splitLines cs
    else
      match splitLines cs with
      | [] => [[c]]
      | l :: ls => (c :: l) :: ls

/-- The text of the given lines, every one ended by LF. -/
def joinLines (ls : List Text) : Text := ls.flatMap fun l => l ++ [lf]

/-- An ASCII digit, 0x30 to 0x39 (R223). -/
def isDigit (c : Char) : Bool := decide (48 ≤ c.toNat ∧ c.toNat ≤ 57)

/-- The value of digits read as decimal, after the value of those before them. -/
def digitsValue (before : Nat) (ds : Text) : Nat :=
  ds.foldl (fun v c => 10 * v + (c.toNat - 48)) before

/-- A number of R223: one or more ASCII digits, leading zeros allowed, and no other character. -/
def parseNumber (x : Text) : Option Nat :=
  if x ≠ [] ∧ x.all isDigit = true then some (digitsValue 0 x) else none

/-- A number of at most 255 (R224). -/
def parseByte (x : Text) : Option Byte :=
  match parseNumber x with
  | some n => if n < 256 then some (BitVec.ofNat 8 n) else none
  | none => none

/-- Every line a number of at most 255. -/
def parseBytes (ls : List Text) : Option (List Byte) :=
  match ls with
  | [] => some []
  | l :: ls' =>
    match parseByte l, parseBytes ls' with
    | some b, some bs => some (b :: bs)
    | _, _ => none

/-- A breakpoint line of R223: a number below 256, one space, and then the name, every remaining character. -/
def parseEntry (x : Text) : Option (Nat × Text) :=
  match parseNumber (x.takeWhile isDigit), x.dropWhile isDigit with
  | some n, ' ' :: name => if n < Config.memSize then some (n, name) else none
  | _, _ => none

/-- Every line a breakpoint line. -/
def parseEntries (ls : List Text) : Option (List (Nat × Text)) :=
  match ls with
  | [] => some []
  | l :: ls' =>
    match parseEntry l, parseEntries ls' with
    | some e, some es => some (e :: es)
    | _, _ => none

/-- R223 to R225: the state that a file's lines stand for, none where a check of R224 fails. Line 1 is `CYCLES`,
line 2 `ACC`, line 3 `PC`, lines 4 to 259 are `MEM`, and the rest are breakpoints, inserted in file order
into an empty table. -/
def parseStateLines (ls : List Text) : Option State :=
  match ls with
  | l1 :: l2 :: l3 :: rest =>
    match parseNumber l1, parseByte l2, parseByte l3, parseBytes (rest.take Config.memSize),
        parseEntries (rest.drop Config.memSize) with
    | some cycles, some acc, some pc, some bytes, some entries =>
      if bytes.length = Config.memSize then
        match insertAll [] entries with
        | .ok t => some ⟨acc, pc, Memory.ofBytes bytes, cycles, t⟩
        | .error _ => none
      else none
    | _, _, _, _, _ => none
  | _ => none

/-- R224, R225 `load_state`: the new state, or PersistenceError. `none` is a missing file. A load replaces the whole
state; the state before it plays no part. -/
def loadState (file : Option Text) : Except CommandFailure State :=
  match file with
  | none => .error .persistenceError
  | some x =>
    match parseStateLines (splitLines x) with
    | some t => .ok t
    | none => .error .persistenceError

/-- A number in decimal without leading zeros (R226, R229). -/
def decimal (n : Nat) : Text := Nat.toDigits 10 n

/-- The element at place `i`, and the list without it. -/
def pick {α : Type} (i : Nat) (x : α) (xs : List α) : α × List α :=
  match i, xs with
  | 0, _ => (x, xs)
  | _, [] => (x, [])
  | i + 1, y :: ys => ((pick i y ys).1, x :: (pick i y ys).2)

/-- The list in the order that `choice` stands for: its remainder picks the first element, its quotient the order of
the others. Every order is some choice's. The first argument bounds the recursion. -/
def arrange {α : Type} (fuel choice : Nat) (xs : List α) : List α :=
  match fuel, xs with
  | 0, _ => xs
  | _, [] => []
  | fuel + 1, y :: ys =>
    let p := pick (choice % (ys.length + 1)) y ys
    p.1 :: arrange fuel (choice / (ys.length + 1)) p.2

/-- The breakpoint line of an entry: its address, one space, its name (R226). -/
def entryLine (e : Breakpoint) : Text := decimal e.address.toNat ++ ' ' :: e.name

/-- The 259 lines of R223 before the breakpoint lines. -/
def stateLines (s : State) : List Text :=
  [decimal s.cycles, decimal s.acc.toNat, decimal s.pc.toNat] ++ s.mem.bytes.map fun b => decimal b.toNat

/-- A name the format cannot carry (R226, D16). -/
def hasLf (name : Text) : Bool := decide (lf ∈ name)

/-- R226 `save_state`: the file's text, or PersistenceError, writing nothing, where the destination cannot be written
or a name holds an LF. The breakpoint lines may stand in any order; `choice` says which. -/
def saveState (writable : Bool) (choice : Nat) (s : State) : Except CommandFailure Text :=
  if !writable || s.bpt.any (fun e => hasLf e.name) then .error .persistenceError
  else .ok (joinLines (stateLines s ++ (arrange s.bpt.length choice s.bpt).map entryLine))

end Sys2Proof.Machine
end

