-- ==== Sys2Proof/Machine/Listing.lean ====
section
/-! DEFINITION. The program listing (spec/80_host_interface.md R228, R229) and the rendering strings
(spec/30_encoding.md R71). -/

namespace Sys2Proof.Machine

/-- R63: the mnemonic of an opcode. -/
def mnemonic (op : Opcode) : Text :=
  match op with
  | .add => "ADD".toList
  | .and => "AND".toList
  | .orr => "ORR".toList
  | .xor => "XOR".toList
  | .ldr => "LDR".toList
  | .str => "STR".toList
  | .jmp => "JMP".toList
  | .jne => "JNE".toList

/-- R71: the fixed text of an opcode. `addr` is literal text: no number is substituted (D17). -/
def rendering (op : Opcode) : Text :=
  match op with
  | .add => "ADD: ACC <- ACC + [addr]".toList
  | .and => "AND: ACC <- ACC & [addr]".toList
  | .orr => "ORR: ACC <- ACC | [addr]".toList
  | .xor => "XOR: ACC <- ACC ^ [addr]".toList
  | .ldr => "LDR: ACC <- [addr]".toList
  | .str => "STR: ACC -> [addr]".toList
  | .jmp => "JMP: PC  <- addr".toList
  | .jne => "JNE: PC  <- addr if ACC != 0".toList

/-- TAB (0x09). -/
def tab : Char := '\t'

/-- The fields every line of the listing has (R228): the slot's byte address and its two bytes, in decimal. -/
def slotFields (p : Addr) (w : InstructionWord) : Text :=
  decimal p.toNat ++ tab :: (decimal w.opcode.toNat ++ tab :: decimal w.operandAddress.toNat)

/-- R228: the line of one slot; the short form for an illegal word and for the all-zero word (R64). -/
def listingLine (p : Addr) (w : InstructionWord) : Text :=
  match decode w with
  | .invalid _ => slotFields p w
  | .instr i =>
    if w.opcode = 0 ∧ w.operandAddress = 0 then slotFields p w
    else slotFields p w ++ tab :: ':' :: tab :: rendering i.opcode

/-- The byte address of slot `k`: the even addresses 0, 2, ..., 254 (R4 `NUM_SLOTS`). -/
def slotAddress (k : Nat) : Addr := BitVec.ofNat 8 (Config.instrBytes * k)

/-- The two bytes of a slot. -/
def slotWord (s : State) (p : Addr) : InstructionWord := ⟨memRead s p, memRead s (p + 1)⟩

/-- The lines of the listing: all 128 slots in address order (R228). -/
def listingLines (s : State) : List Text :=
  (List.range Config.numSlots).map fun k => listingLine (slotAddress k) (slotWord s (slotAddress k))

/-- R228 `print_program`, each line ended by LF (R229). -/
def printProgram (s : State) : Text := joinLines (listingLines s)

end Sys2Proof.Machine
end

