-- ==== Sys2Proof/Machine/Assembler.lean ====
section
/-! DEFINITION. The assembler syntax of spec/30_encoding.md R72, which the spec defines for its own programs (D18), as a
function from a source text to the bytes it places. What R72 leaves open is log entry 9. -/

namespace Sys2Proof.Machine

/-- What may stand for the number `n` of R72: a number in [0, 255], or a label. -/
inductive AsmOperand where
  | number (n : Nat)
  | label (l : Text)
deriving DecidableEq, Repr

/-- The parts of a source text (R72). -/
inductive AsmItem where
  | label (l : Text)
  | instr (op : Opcode) (x : AsmOperand)
  | org (x : AsmOperand)
  | byte (x : AsmOperand)
deriving DecidableEq, Repr

/-- A space or a tab, which separate the parts of a line. -/
def isBlank (c : Char) : Bool := decide (c = ' ' ∨ c = tab)

/-- The parts of a line between blanks, the first of them begun with `part`. -/
def tokensFrom (part x : Text) : List Text :=
  match x with
  | [] => if part = [] then [] else [part]
  | c :: cs =>
    if isBlank c then
      if part = [] then tokensFrom [] cs else part :: tokensFrom [] cs
    else tokensFrom (part ++ [c]) cs

/-- The parts of a line between blanks. -/
def tokens (x : Text) : List Text := tokensFrom [] x

/-- The value of a hexadecimal digit, either case. -/
def hexDigit (c : Char) : Option Nat :=
  if 48 ≤ c.toNat ∧ c.toNat ≤ 57 then some (c.toNat - 48)
  else if 97 ≤ c.toNat ∧ c.toNat ≤ 102 then some (c.toNat - 87)
  else if 65 ≤ c.toNat ∧ c.toNat ≤ 70 then some (c.toNat - 55)
  else none

/-- The value of hexadecimal digits after the value of those before them. -/
def hexValue (before : Nat) (ds : Text) : Option Nat :=
  match ds with
  | [] => some before
  | c :: cs =>
    match hexDigit c with
    | some d => hexValue (16 * before + d) cs
    | none => none

/-- A number of R72: decimal, or hexadecimal after `0x`, and in [0, 255]. -/
def asmNumber (x : Text) : Option Nat :=
  let v :=
    match x with
    | '0' :: 'x' :: [] => none
    | '0' :: 'x' :: d :: ds => hexValue 0 (d :: ds)
    | _ => parseNumber x
  match v with
  | some n => if n < 256 then some n else none
  | none => none

/-- A part that begins with a digit is a number, any other is a label. -/
def asmOperand (x : Text) : Option AsmOperand :=
  match x with
  | [] => none
  | c :: cs =>
    if isDigit c then
      match asmNumber (c :: cs) with
      | some n => some (.number n)
      | none => none
    else some (.label (c :: cs))

/-- The opcode of a mnemonic: one of the eight names, in upper case (R72). -/
def opcodeOfMnemonic (x : Text) : Option Opcode :=
  [Opcode.add, .and, .orr, .xor, .ldr, .str, .jmp, .jne].find? fun op => decide (mnemonic op = x)

/-- What follows the label of a line: nothing, a directive or an instruction. -/
def asmStatement (ts : List Text) : Option (List AsmItem) :=
  match ts with
  | [] => some []
  | [m, x] =>
    match asmOperand x with
    | none => none
    | some x' =>
      if m = ".org".toList then some [.org x']
      else if m = ".byte".toList then some [.byte x']
      else
        match opcodeOfMnemonic m with
        | some op => some [.instr op x']
        | none => none
  | _ => none

/-- One line (R72): an optional `label:`, an optional statement, and a comment from `;` on. -/
def asmLine (x : Text) : Option (List AsmItem) :=
  match tokens (x.takeWhile fun c => decide (c ≠ ';')) with
  | [] => some []
  | t :: ts =>
    if t.getLast? = some ':' then
      match t.dropLast, asmStatement ts with
      | [], _ => none
      | _, none => none
      | c :: cs, some items => if isDigit c then none else some (.label (c :: cs) :: items)
    else asmStatement (t :: ts)

/-- All the lines of a source text. -/
def asmLines (ls : List Text) : Option (List AsmItem) :=
  match ls with
  | [] => some []
  | l :: ls' =>
    match asmLine l, asmLines ls' with
    | some items, some more => some (items ++ more)
    | _, _ => none

/-- The value of an operand under the labels given, an address or a byte in [0, 255]. -/
def asmValue (labels : List (Text × Nat)) (x : AsmOperand) : Option Nat :=
  match x with
  | .number n => some n
  | .label l =>
    match labels.find? fun e => decide (e.1 = l) with
    | some e => if e.2 < 256 then some e.2 else none
    | none => none

/-- First pass: the address each label names, from the location `loc` on. An instruction at an odd address is an
assembly error (R72), and so is a byte past the last address. -/
def asmLabels (loc : Nat) (labels : List (Text × Nat)) (items : List AsmItem) : Option (List (Text × Nat)) :=
  match items with
  | [] => some labels
  | .label l :: more =>
    if labels.any (fun e => decide (e.1 = l)) then none else asmLabels loc (labels ++ [(l, loc)]) more
  | .instr _ _ :: more =>
    if loc % 2 = 0 ∧ loc + 2 ≤ Config.memSize then asmLabels (loc + 2) labels more else none
  | .byte _ :: more => if loc + 1 ≤ Config.memSize then asmLabels (loc + 1) labels more else none
  | .org x :: more =>
    match asmValue labels x with
    | some n => asmLabels n labels more
    | none => none

/-- Second pass: the bytes placed, in source order, each with its address. -/
def asmBytes (loc : Nat) (labels : List (Text × Nat)) (items : List AsmItem) : Option (List (Nat × Byte)) :=
  match items with
  | [] => some []
  | .label _ :: more => asmBytes loc labels more
  | .instr op x :: more =>
    match asmValue labels x, asmBytes (loc + 2) labels more with
    | some n, some cells => some ((loc, op.byte) :: (loc + 1, BitVec.ofNat 8 n) :: cells)
    | _, _ => none
  | .byte x :: more =>
    match asmValue labels x, asmBytes (loc + 1) labels more with
    | some n, some cells => some ((loc, BitVec.ofNat 8 n) :: cells)
    | _, _ => none
  | .org x :: more =>
    match asmValue labels x with
    | some n => asmBytes n labels more
    | none => none

/-- The bytes of a source text, none on an assembly error: a line of another form, an unknown or repeated label, an
instruction at an odd address, a byte past the last address or two bytes at one address. R72 names no line end: LF alone
ends a line, and a CR is a character of its line like any other (DESIGN CHOICE, log entry 9). -/
def assemble (source : Text) : Option (List (Nat × Byte)) :=
  match asmLines (splitLines source) with
  | none => none
  | some items =>
    match asmLabels 0 [] items with
    | none => none
    | some labels =>
      match asmBytes 0 labels items with
      | none => none
      | some cells => if (cells.map Prod.fst).Nodup then some cells else none

/-- The memory with the placed bytes stored into it. -/
def placeBytes (m : Memory) (cells : List (Nat × Byte)) : Memory :=
  cells.foldl (fun m c => m.write (BitVec.ofNat 8 c.1) c.2) m

end Sys2Proof.Machine
end

