-- ==== Sys2Proof/Machine/RawTier.lean ====
section
/-! DEFINITION. The raw tier as an entry point of its own (spec/30_encoding.md R69, spec/80_host_interface.md R232, D23):
a pure function of the state, which changes none of it. -/

namespace Sys2Proof.Machine

/-- R69 `RawEffect`, the host's `apply_raw_effect`: a row of the table by the instruction's opcode. -/
def rawEffect (i : Instr) (s : State) : RawResult :=
  match i with
  | .add addr => rawAdd addr s
  | .and addr => rawAnd addr s
  | .orr addr => rawOrr addr s
  | .xor addr => rawXor addr s
  | .ldr addr => rawLdr addr s
  | .str addr => rawStr addr s
  | .jmp addr => rawJmp addr s
  | .jne addr => rawJne addr s

end Sys2Proof.Machine
end

