-- ==== Sys2Proof/Machine/Run.lean ====
section
/-! DEFINITION. The run loop (spec/50_execution_engine.md R146 to R151, R161) and its outcomes. -/

namespace Sys2Proof.Machine

/-- R149: what a `run` returns. -/
inductive RunOutcome where
  /-- `Success(Breakpoint)`, STOPPED-BREAKPOINT. -/
  | breakpoint
  /-- `Success(BudgetExhausted)`, STOPPED-BUDGET-EXHAUSTED. -/
  | budgetExhausted
  /-- `Failure(kind, info)`, STOPPED-ERROR. -/
  | failure (f : Fault)
  /-- The model's own: a step that was refused. No step is, so no run ends so. -/
  | refused (r : Refusal)
deriving DecidableEq, Repr

/-- R149: the host-visible result, `ok = (outcome is Success)`. -/
def RunOutcome.ok (o : RunOutcome) : Bool :=
  match o with
  | .breakpoint => true
  | .budgetExhausted => true
  | .failure _ => false
  | .refused _ => false

/-- R29: the run status of the document. RUNNING exists only while a `run` executes; the others are how it ends. -/
inductive RunStatus where
  | running
  | stoppedBreakpoint
  | stoppedError
  | stoppedBudgetExhausted
deriving DecidableEq, Repr

/-- R149: the status each outcome stands for. -/
def RunOutcome.status (o : RunOutcome) : RunStatus :=
  match o with
  | .breakpoint => .stoppedBreakpoint
  | .budgetExhausted => .stoppedBudgetExhausted
  | .failure _ => .stoppedError
  | .refused _ => .stoppedError

/-- R146, R147 `run(max_steps)`: the outcome and the state the host sees then. A zero budget checks nothing; a faulting
step leaves the state of the steps before it (R150); the breakpoint check comes after each completed step and
before the budget test (R148), and there is none before the first step. -/
def run (maxSteps : Nat) (s : State) : RunOutcome × State :=
  match maxSteps with
  | 0 => (.budgetExhausted, s)
  | n + 1 =>
    match step s with
    | .fault f => (.failure f, s)
    | .refused r => (.refused r, s)
    | .next t => if isBreakpoint t then (.breakpoint, t) else run n t

end Sys2Proof.Machine
end

