-- ==== Sys2Proof/Machine/Commands.lean ====
section
/-! DEFINITION. The host's commands to one block (spec/80_host_interface.md R220 to R232), each one atomic transaction
(spec/00_scope.md R9): what it answers and the state after it. -/

namespace Sys2Proof.Machine

/-- R220: the commands to one block. Address and budget arguments are natural numbers (D7, D10). -/
inductive Command where
  | run (maxSteps : Nat)
  | isBreakpoint
  | insert (n : Nat) (name : Text)
  | findByAddress (n : Nat)
  | findByName (name : Text)
  | deleteByAddress (n : Nat)
  | deleteByName (name : Text)
  | count
  | readAcc
  | readPc
  | readCycles
  | readMem (n : Nat)
  /-- `none` is a missing file. -/
  | loadState (file : Option Text)
  /-- `writable`: the destination can be written. -/
  | saveState (writable : Bool)
  | printProgram
  | make (op : Opcode) (n : Nat)
  | decode (opcode operandAddress : Byte)
  | execute (i : Instr)
  | applyRawEffect (i : Instr)
deriving DecidableEq, Repr

/-- What a command answers (R220). -/
inductive Response where
  | ok
  | failed (f : CommandFailure)
  | outcome (o : RunOutcome)
  | truth (b : Bool)
  | entry (e : Option Breakpoint)
  | number (n : Nat)
  | byte (b : Byte)
  | text (x : Text)
  | instr (i : Instr)
  | decoded (d : Decoded)
  | raw (r : RawResult)
  /-- The model's own: a direct `execute` that stopped with a fault. No instruction does (R68). -/
  | coreFault (f : Fault)
  /-- The model's own: a direct `execute` that was refused. No instruction is. -/
  | coreRefused (r : Refusal)
deriving DecidableEq, Repr

/-- A command that writes the state or fails: a failure leaves the state as it was (R187, and R225 with D14). -/
def commit (r : Except CommandFailure State) (s : State) : Response × State :=
  match r with
  | .ok t => (.ok, t)
  | .error f => (.failed f, s)

/-- R232 `execute(instr)`: the full contract alone, with no alignment check, no count and no breakpoint check. -/
def executeDirect (i : Instr) (s : State) : Response × State :=
  match exec i s with
  | .next t => (.ok, t)
  | .fault f => (.coreFault f, s)
  | .refused r => (.coreRefused r, s)

/-- R226 `save_state` as a command; `draw` numbers the free order of its breakpoint lines. -/
def saveCommand (draw : Nat) (writable : Bool) (s : State) : Response × State :=
  match saveState writable (Config.saveOrder draw) s with
  | .ok x => (.text x, s)
  | .error f => (.failed f, s)

/-- One command of R220: its answer and the state after it. `draw` numbers the free values. -/
def command (draw : Nat) (c : Command) (s : State) : Response × State :=
  match c with
  | .run n => (.outcome (Machine.run n s).1, (Machine.run n s).2)
  | .isBreakpoint => (.truth (Machine.isBreakpoint s), s)
  | .insert n name => commit (insertBreakpoint n name s) s
  | .findByAddress n => (.entry (Machine.findByAddress n s), s)
  | .findByName name => (.entry (Machine.findByName name s), s)
  | .deleteByAddress n => commit (Machine.deleteByAddress n s) s
  | .deleteByName name => commit (Machine.deleteByName name s) s
  | .count => (.number (countBreakpoints s), s)
  | .readAcc => (.byte s.acc, s)
  | .readPc => (.byte s.pc, s)
  | .readCycles => (.number s.cycles, s)
  | .readMem n => (.byte (memRead s (maskAddress n)), s)
  | .loadState file => commit (Machine.loadState file) s
  | .saveState writable => saveCommand draw writable s
  | .printProgram => (.text (Machine.printProgram s), s)
  | .make op n => (.instr (Machine.make op n), s)
  | .decode ob ab => (.decoded (Sys2Proof.decode ⟨ob, ab⟩), s)
  | .execute i => executeDirect i s
  | .applyRawEffect i => (.raw (rawEffect i s), s)

end Sys2Proof.Machine
end

