-- ==== Sys2Proof/Machine/Blocks.lean ====
section
/-! DEFINITION. Several blocks side by side: creation, copy and move (spec/80_host_interface.md R231,
spec/60_exceptions.md R191, spec/70_reset_and_hazards.md R200, R202). -/

namespace Sys2Proof.Machine

/-- The blocks that exist, by their place in the list; they share no state (R191). -/
structure Blocks where
  blocks : List State
  /-- The model's own: how many free values have been drawn (log entries 7 and 8). -/
  draws  : Nat
deriving DecidableEq, Repr

/-- What the host may do to the blocks. -/
inductive BlocksCommand where
  /-- A new block comes into existence (R200). -/
  | create
  /-- A command to block `k` (R220). -/
  | onBlock (k : Nat) (c : Command)
  /-- A copy of block `src`: a new block, or the whole of an existing one replaced (R202, R231). -/
  | copy (src : Nat) (dst : Option Nat)
  /-- Block `src` moved into a new block, or over an existing one (R202, R231). -/
  | move (src : Nat) (dst : Option Nat)
deriving DecidableEq, Repr

/-- What it answers: a command's response, or the place of the block written. -/
inductive BlocksResponse where
  | response (r : Response)
  | block (k : Nat)
deriving DecidableEq, Repr

/-- K1: the state of a moved-from block, any state that meets R26 and R30, as the free contents give it. -/
def movedFromState (c : Config.AnyContents) : State :=
  ⟨c.acc, c.pc, Memory.ofBytes c.mem, c.cycles, insertWhatFits [] c.entries⟩

/-- The blocks with a state written to a new block or over an existing one, and the place written; none where there is
no such block. -/
def putBlock (bs : List State) (dst : Option Nat) (s : State) : Option (Nat × List State) :=
  match dst with
  | none => some (bs.length, bs ++ [s])
  | some k => if k < bs.length then some (k, bs.set k s) else none

/-- One command to the blocks: its answer and the blocks after it; none for a block that does not exist. -/
def blocksCommand (c : BlocksCommand) (b : Blocks) : Option (BlocksResponse × Blocks) :=
  match c with
  | .create => some (.block b.blocks.length, { b with blocks := b.blocks ++ [State.reset] })
  | .onBlock k c =>
    match b.blocks[k]? with
    | none => none
    | some s =>
      some (.response (command b.draws c s).1, ⟨b.blocks.set k (command b.draws c s).2, b.draws + 1⟩)
  | .copy src dst =>
    match b.blocks[src]? with
    | none => none
    | some s =>
      match putBlock b.blocks dst s with
      | none => none
      | some (k, bs) => some (.block k, { b with blocks := bs })
  | .move src dst =>
    match b.blocks[src]? with
    | none => none
    | some s =>
      match putBlock b.blocks dst s with
      | none => none
      | some (k, bs) => some (.block k, ⟨bs.set src (movedFromState (Config.movedFrom b.draws)), b.draws + 1⟩)

end Sys2Proof.Machine
end

