-- ==== Sys2Proof/Safety.lean ====
section
/-! DEFINITION. What counts as a safe run, in the terms statements use: steps that complete, and what software must do
so that they do (spec/70_reset_and_hazards.md R207). -/

namespace Sys2Proof.Machine

/-- The state after `n` completed steps, breakpoints playing no part; none where a step does not complete. -/
def stepsFrom (n : Nat) (s : State) : Option State :=
  match n with
  | 0 => some s
  | n + 1 =>
    match step s with
    | .next t => stepsFrom n t
    | .fault _ => none
    | .refused _ => none

/-- R207: the instruction to be fetched stands at an even address and its opcode byte is one of 0 to 7. -/
def readyToStep (s : State) : Bool := !pcMisaligned s && (fetchWord s).wellFormed

/-- R207 over the next `n` steps: every state that execution reaches before its last step is ready for the next. -/
def meetsObligations (n : Nat) (s : State) : Prop :=
  ∀ k t, k < n → stepsFrom k s = some t → readyToStep t = true

/-- No state reached after one to `k` steps sits on a breakpoint (R148: the check follows each completed step). -/
def noBreakpointWithin (k : Nat) (s : State) : Prop :=
  ∀ j t, 1 ≤ j → j ≤ k → stepsFrom j s = some t → isBreakpoint t = false

/-- R68: the instruction is a taken jump, JMP or JNE with `ACC != 0`. -/
def jumpTaken (i : Instr) (s : State) : Bool :=
  match i with
  | .jmp _ => true
  | .jne _ => accNonZero s
  | .add _ | .and _ | .orr _ | .xor _ | .ldr _ | .str _ => false

/-- R21: the instruction writes the accumulator. -/
def writesAcc (i : Instr) : Bool :=
  match i with
  | .add _ | .and _ | .orr _ | .xor _ | .ldr _ => true
  | .str _ | .jmp _ | .jne _ => false

/-- R53: the address of the one cell the instruction stores to, none for an instruction that stores nothing. -/
def storedAddress (i : Instr) : Option Addr :=
  match i with
  | .str a => some (effectiveAddress a)
  | .add _ | .and _ | .orr _ | .xor _ | .ldr _ | .jmp _ | .jne _ => none

/-- R220 "state written": the commands that write the processor state or the cycle counter. -/
def writesProcessor (c : Command) : Bool :=
  match c with
  | .run _ | .loadState _ | .execute _ => true
  | .isBreakpoint | .insert _ _ | .findByAddress _ | .findByName _ | .deleteByAddress _ | .deleteByName _ | .count
  | .readAcc | .readPc | .readCycles | .readMem _ | .saveState _ | .printProgram | .make _ _ | .decode _ _
  | .applyRawEffect _ => false

/-- R220 "state written": the commands that write the breakpoint table. -/
def writesBreakpoints (c : Command) : Bool :=
  match c with
  | .insert _ _ | .deleteByAddress _ | .deleteByName _ | .loadState _ => true
  | .run _ | .isBreakpoint | .findByAddress _ | .findByName _ | .count | .readAcc | .readPc | .readCycles
  | .readMem _ | .saveState _ | .printProgram | .make _ _ | .decode _ _ | .execute _ | .applyRawEffect _ => false

/-- A text that may be a label of R72 (log entry 9): not empty, no digit first, and no blank, `;` or LF in it. -/
def isLabelText (l : Text) : Bool :=
  match l with
  | [] => false
  | c :: cs => !isDigit c && (c :: cs).all fun d => decide (d ≠ ' ' ∧ d ≠ tab ∧ d ≠ ';' ∧ d ≠ lf)

end Sys2Proof.Machine
end

