-- ==== Sys2Proof/Certificates/Slice0/Obligations.lean ====
section
/-! DEFINITION. The statements for the provers, from the numbered rules of spec/, file by file. -/

open Sys2Proof Sys2Proof.Machine

/-! ### Encoding (spec/30_encoding.md) -/

/-- R65: `Decode` by the opcode byte, total, and both round trips; the same through the numbers of the opcode table;
decoding reads its two arguments alone and changes no state. -/
def Obligations.DecodeEncodeAgree : Prop :=
  (∀ i : Instr, decode (encode i) = .instr i) ∧
  (∀ (w : InstructionWord) (i : Instr), decode w = .instr i → encode i = w) ∧
  (∀ (op : Opcode) (ab : Byte), decode ⟨op.byte, ab⟩ = .instr (.ofOpcode op ab)) ∧
  (∀ w : InstructionWord, 8 ≤ w.opcode.toNat → decode w = .invalid w.opcode) ∧
  (∀ i : Instr, decodeTableWord 16 (encode i).toWord16.toNat = some i) ∧
  (∀ (draw : Nat) (ob ab : Byte) (s : State), command draw (.decode ob ab) s = (.decoded (decode ⟨ob, ab⟩), s))

/-- R63: a word is an instruction of a row exactly when `(w & mask) = match`, the rows never overlap, the opcode bytes are
0 to 7 in the order of the map, and every address byte is legal with each of the eight. -/
def Obligations.OpcodeMapRowsDecide : Prop :=
  encodingTable.map EncodingRow.opcode = [.add, .and, .orr, .xor, .ldr, .str, .jmp, .jne] ∧
  (encodingTable.map fun r => r.opcode.byte.toNat) = [0, 1, 2, 3, 4, 5, 6, 7] ∧
  (∀ r ∈ encodingTable, ∀ w : BitVec 16,
    r.fits w = true ↔ ∃ a, decode (.ofWord16 w) = .instr (.ofOpcode r.opcode a)) ∧
  (∀ r ∈ encodingTable, ∀ r' ∈ encodingTable, ∀ w : BitVec 16, r.fits w = true → r'.fits w = true → r = r') ∧
  (∀ r ∈ encodingTable, ∀ a : Addr, r.fits (InstructionWord.toWord16 ⟨r.opcode.byte, a⟩) = true) ∧
  (∀ ab : Byte, ((List.range 256).countP fun n => (InstructionWord.mk (BitVec.ofNat 8 n) ab).wellFormed) = 8)

/-- R64: decoding fails exactly for an opcode byte of 8 or more, whatever the address byte holds; fetching such a word
raises DecodeError; 248 opcode bytes are illegal; the all-zero word is `ADD 0`, though the listing prints it in short form. -/
def Obligations.IllegalOpcodesInvalid : Prop :=
  (∀ w : InstructionWord, decode w = .invalid w.opcode ↔ 8 ≤ w.opcode.toNat) ∧
  (∀ w : InstructionWord, w.wellFormed = false ↔ 8 ≤ w.opcode.toNat) ∧
  (∀ ab : Byte, ((List.range 256).countP fun n => !(InstructionWord.mk (BitVec.ofNat 8 n) ab).wellFormed) = 248) ∧
  (∀ s : State, s.pc.toNat % 2 = 0 → 8 ≤ (s.mem.read s.pc).toNat →
    step s = .fault (.decodeError s.pc (s.mem.read s.pc))) ∧
  decode ⟨0, 0⟩ = .instr (.add 0) ∧
  (∀ p : Addr, listingLine p ⟨0, 0⟩ = slotFields p ⟨0, 0⟩)

/-- Words written out from spec/95_test_vectors.md TE1 to TE7, TJ1, TL1 and TL5 decode as it says. -/
def Obligations.SampleWordsDecode : Prop :=
  decode ⟨0x00, 0x00⟩ = .instr (.add 0) ∧ decode ⟨0x07, 0xFF⟩ = .instr (.jne 255) ∧
  decode ⟨0x06, 0x01⟩ = .instr (.jmp 1) ∧ decode ⟨0x08, 0x00⟩ = .invalid 0x08 ∧
  decode ⟨0xFF, 0xFF⟩ = .invalid 0xFF ∧ decode ⟨0x80, 0x10⟩ = .invalid 0x80 ∧
  decode ⟨0x04, 0xFF⟩ = .instr (.ldr 255) ∧ decode ⟨0x06, 0x40⟩ = .instr (.jmp 64) ∧
  decode ⟨0x04, 0x80⟩ = .instr (.ldr 0x80) ∧ decode ⟨0x05, 0x40⟩ = .instr (.str 0x40)

/-- R66: an instruction is one of eight opcodes with one address in [0, 255]; one constructed from `n` reads back
`n mod 256`. -/
def Obligations.MakeMasksAddress : Prop :=
  (∀ (op : Opcode) (n : Nat), (make op n).opcode = op ∧ (make op n).addr.toNat = n % 256) ∧
  (∀ i : Instr, i = .ofOpcode i.opcode i.addr ∧ i.addr.toNat ≤ 255) ∧
  (∀ op : Opcode, [0, 65, 254, 257, 2048].map (fun n => (make op n).addr.toNat) = [0, 65, 254, 1, 0]) ∧
  (∀ (draw : Nat) (op : Opcode) (n : Nat) (s : State), command draw (.make op n) s = (.instr (make op n), s))

/-! ### The eight instructions (spec/40_alu.md, 41_load_store.md, 42_control.md): encoding, raw effect, and the next state,
which says what is written and, by naming nothing else, what is left as it was -/

/-- R80: ADD completes in every state; the exact sum, kept modulo 256. -/
def Obligations.AddWrapsModulo256 : Prop :=
  ∀ (a : Addr) (s : State),
    encode (.add a) = ⟨0x00, a⟩ ∧ decode ⟨0x00, a⟩ = .instr (.add a) ∧
    (rawEffect (.add a) s).acc = (s.acc.toNat : Int) + (s.mem.read a).toNat ∧
    0 ≤ (rawEffect (.add a) s).acc ∧ (rawEffect (.add a) s).acc ≤ 510 ∧
    (s.acc + s.mem.read a).toNat = (s.acc.toNat + (s.mem.read a).toNat) % 256 ∧
    exec (.add a) s = .next { s with acc := s.acc + s.mem.read a, pc := s.pc + 2 }

/-- R81: AND completes in every state with the bitwise AND. -/
def Obligations.AndIsBitwise : Prop :=
  ∀ (a : Addr) (s : State),
    encode (.and a) = ⟨0x01, a⟩ ∧ decode ⟨0x01, a⟩ = .instr (.and a) ∧
    (rawEffect (.and a) s).acc = ((s.acc &&& s.mem.read a).toNat : Int) ∧
    exec (.and a) s = .next { s with acc := s.acc &&& s.mem.read a, pc := s.pc + 2 }

/-- R82: ORR completes in every state with the bitwise inclusive OR. -/
def Obligations.OrrIsBitwise : Prop :=
  ∀ (a : Addr) (s : State),
    encode (.orr a) = ⟨0x02, a⟩ ∧ decode ⟨0x02, a⟩ = .instr (.orr a) ∧
    (rawEffect (.orr a) s).acc = ((s.acc ||| s.mem.read a).toNat : Int) ∧
    exec (.orr a) s = .next { s with acc := s.acc ||| s.mem.read a, pc := s.pc + 2 }

/-- R83: XOR completes in every state with the bitwise exclusive OR. -/
def Obligations.XorIsBitwise : Prop :=
  ∀ (a : Addr) (s : State),
    encode (.xor a) = ⟨0x03, a⟩ ∧ decode ⟨0x03, a⟩ = .instr (.xor a) ∧
    (rawEffect (.xor a) s).acc = ((s.acc ^^^ s.mem.read a).toNat : Int) ∧
    exec (.xor a) s = .next { s with acc := s.acc ^^^ s.mem.read a, pc := s.pc + 2 }

/-- R100: LDR completes in every state with the byte of its cell; at its own address that byte is its opcode byte, and
one address on it is the address byte. A cell that no completed step stores to is loaded with what it held before those
steps, which is 0 at creation. -/
def Obligations.LdrLoadsCell : Prop :=
  ∀ (a : Addr) (s : State),
    encode (.ldr a) = ⟨0x04, a⟩ ∧ decode ⟨0x04, a⟩ = .instr (.ldr a) ∧
    (rawEffect (.ldr a) s).acc = ((s.mem.read a).toNat : Int) ∧
    exec (.ldr a) s = .next { s with acc := s.mem.read a, pc := s.pc + 2 } ∧
    (fetchWord s = ⟨0x04, a⟩ → a = s.pc → s.mem.read a = 0x04) ∧
    (fetchWord s = ⟨0x04, a⟩ → a = s.pc + 1 → s.mem.read a = a) ∧
    State.reset.mem.read a = 0 ∧
    (∀ (n : Nat) (t : State), stepsFrom n s = some t →
      (∀ k u i, k < n → stepsFrom k s = some u → decode (fetchWord u) = .instr i → storedAddress i ≠ some a) →
      exec (.ldr a) t = .next { t with acc := s.mem.read a, pc := t.pc + 2 })

/-- R101: STR completes in every state; its one cell then holds the accumulator and every other cell what it held. -/
def Obligations.StrStoresAccumulator : Prop :=
  ∀ (a : Addr) (s : State),
    encode (.str a) = ⟨0x05, a⟩ ∧ decode ⟨0x05, a⟩ = .instr (.str a) ∧
    exec (.str a) s = .next { s with mem := s.mem.write (effectiveAddress a) s.acc, pc := s.pc + 2 } ∧
    (s.mem.write (effectiveAddress a) s.acc).read (effectiveAddress a) = s.acc ∧
    (∀ b : Addr, b ≠ effectiveAddress a → (s.mem.write (effectiveAddress a) s.acc).read b = s.mem.read b)

/-- R120: JMP completes in every state, at its target exactly, odd ones included; its raw target is in [-2, 253]. -/
def Obligations.JmpReachesTarget : Prop :=
  ∀ (a : Addr) (s : State),
    encode (.jmp a) = ⟨0x06, a⟩ ∧ decode ⟨0x06, a⟩ = .instr (.jmp a) ∧
    (rawEffect (.jmp a) s).pc = (a.toNat : Int) - 2 ∧
    -2 ≤ (rawEffect (.jmp a) s).pc ∧ (rawEffect (.jmp a) s).pc ≤ 253 ∧
    exec (.jmp a) s = .next { s with pc := a } ∧
    (a = s.pc + 2 → exec (.jmp a) s = .next { s with pc := s.pc + 2 }) ∧
    exec (make .jmp 256) s = .next { s with pc := 0 }

/-- R121: JNE completes in every state, at its target where `ACC != 0`, at the next instruction where `ACC = 0`. -/
def Obligations.JneTestsAccumulator : Prop :=
  ∀ (a : Addr) (s : State),
    encode (.jne a) = ⟨0x07, a⟩ ∧ decode ⟨0x07, a⟩ = .instr (.jne a) ∧
    (rawEffect (.jne a) s).pc = (if s.acc ≠ 0 then (a.toNat : Int) - 2 else s.pc.toNat) ∧
    exec (.jne a) s = .next { s with pc := if s.acc ≠ 0 then a else s.pc + 2 }

/-! ### The execute contract (spec/30_encoding.md) -/

/-- R68: `Execute` cannot fail; it stores the raw results masked after the advance by 2, and the net program counter is
the target of a taken jump, else two further on. Masking is `mod 256`, of negative values too. -/
def Obligations.ExecuteContract : Prop :=
  (∀ v : Int, ((maskToByte v).toNat : Int) = v % 256) ∧
  ∀ (i : Instr) (s : State), ∃ t, exec i s = .next t ∧
    t.acc = maskToByte (rawEffect i s).acc ∧ t.pc = maskToByte ((rawEffect i s).pc + 2) ∧
    t.mem = (rawEffect i s).mem ∧ t.cycles = s.cycles ∧ t.bpt = s.bpt ∧
    t.pc = (if jumpTaken i s then i.addr else s.pc + 2)

/-- R69: the table of raw effects, row by row, with the ranges of its last column; as a command it changes no state. -/
def Obligations.RawEffectTable : Prop :=
  (∀ (a : Addr) (s : State),
    rawEffect (.add a) s = ⟨(s.acc.toNat : Int) + (s.mem.read a).toNat, s.pc.toNat, s.mem⟩ ∧
    rawEffect (.and a) s = ⟨((s.acc &&& s.mem.read a).toNat : Int), s.pc.toNat, s.mem⟩ ∧
    rawEffect (.orr a) s = ⟨((s.acc ||| s.mem.read a).toNat : Int), s.pc.toNat, s.mem⟩ ∧
    rawEffect (.xor a) s = ⟨((s.acc ^^^ s.mem.read a).toNat : Int), s.pc.toNat, s.mem⟩ ∧
    rawEffect (.ldr a) s = ⟨((s.mem.read a).toNat : Int), s.pc.toNat, s.mem⟩ ∧
    rawEffect (.str a) s = ⟨(s.acc.toNat : Int), s.pc.toNat, s.mem.write a s.acc⟩ ∧
    rawEffect (.jmp a) s = ⟨(s.acc.toNat : Int), (a.toNat : Int) - 2, s.mem⟩ ∧
    rawEffect (.jne a) s = ⟨(s.acc.toNat : Int), if s.acc ≠ 0 then (a.toNat : Int) - 2 else s.pc.toNat, s.mem⟩) ∧
  (∀ (i : Instr) (s : State), 0 ≤ (rawEffect i s).acc ∧ (rawEffect i s).acc ≤ 510 ∧
    (i.opcode ≠ .add → (rawEffect i s).acc ≤ 255) ∧
    (if jumpTaken i s then -2 ≤ (rawEffect i s).pc ∧ (rawEffect i s).pc ≤ 253
     else (rawEffect i s).pc = s.pc.toNat)) ∧
  (∀ (draw : Nat) (i : Instr) (s : State), command draw (.applyRawEffect i) s = (.raw (rawEffect i s), s))

/-- The frame of every instruction (R20, R21, R53): the counter and the breakpoint table are never touched; the
accumulator only by ADD, AND, ORR, XOR and LDR; memory only in the one cell STR stores to. -/
def Obligations.ExecuteFrame : Prop :=
  ∀ (i : Instr) (s t : State), exec i s = .next t →
    t.cycles = s.cycles ∧ t.bpt = s.bpt ∧ (writesAcc i = false → t.acc = s.acc) ∧
    (storedAddress i = none → t.mem = s.mem) ∧
    (∀ b : Addr, storedAddress i ≠ some b → t.mem.read b = s.mem.read b) ∧
    (∀ a : Addr, storedAddress i = some a → t.mem.read a = s.acc)

/-! ### The step (spec/50_execution_engine.md, 60_exceptions.md) -/

/-- R141: a step runs the decoded instruction. Odd `PC` first, then the fetch of the bytes at `PC` and `PC+1` and the
decode check, then the instruction's own effect and one more cycle. -/
def Obligations.StepRunsDecodedInstruction : Prop :=
  ∀ s : State,
    (s.pc.toNat % 2 = 1 → step s = .fault (.alignmentError s.pc)) ∧
    (s.pc.toNat % 2 = 0 → ∀ ob, decode ⟨s.mem.read s.pc, s.mem.read (s.pc + 1)⟩ = .invalid ob →
      step s = .fault (.decodeError s.pc (s.mem.read s.pc))) ∧
    (s.pc.toNat % 2 = 0 → ∀ i, decode ⟨s.mem.read s.pc, s.mem.read (s.pc + 1)⟩ = .instr i →
      ∃ u, exec i s = .next u ∧ step s = .next { u with cycles := s.cycles + 1 })

/-- R142, R144, R145, R181 to R183: which fault a step reports, exactly when it completes, that it is never refused, and
that a completed step adds exactly one cycle and leaves the breakpoint table alone. -/
def Obligations.StepFaultsExactly : Prop :=
  ∀ s : State,
    (∀ f, step s = .fault f ↔
      (s.pc.toNat % 2 = 1 ∧ f = .alignmentError s.pc) ∨
      (s.pc.toNat % 2 = 0 ∧ 8 ≤ (s.mem.read s.pc).toNat ∧ f = .decodeError s.pc (s.mem.read s.pc))) ∧
    (∀ r, step s ≠ .refused r) ∧
    ((∃ t, step s = .next t) ↔ s.pc.toNat % 2 = 0 ∧ (s.mem.read s.pc).toNat < 8) ∧
    (∀ t, step s = .next t → t.cycles = s.cycles + 1 ∧ t.bpt = s.bpt)

/-- Every step keeps the invariants of R26 and R30: memory in canonical form within its 256 cells, no two breakpoints with
one address or one name, and at most `BP_CAPACITY` of them. That memory and table are lists in one canonical order is
the model's choice (log entries 5 and 6). -/
def Obligations.StepKeepsInvariant : Prop :=
  ∀ s t : State, s.wf → step s = .next t → t.wf

/-- The state at creation meets the invariants of R26 and R30, and the canonical forms of its two lists, which are the
model's choice (log entries 5 and 6). -/
def Obligations.ResetMeetsInvariant : Prop := State.reset.wf

/-- R200: the reset value of every piece of state; a block comes into existence with them. That a created block stands
after the others, and draws no free value, is the model's choice (log entry 8). -/
def Obligations.ResetValues : Prop :=
  State.reset.acc = 0 ∧ State.reset.pc = 0 ∧ (∀ a : Addr, State.reset.mem.read a = 0) ∧
  State.reset.cycles = 0 ∧ State.reset.bpt = [] ∧
  (∀ b : Blocks, blocksCommand .create b =
    some (.block b.blocks.length, ⟨b.blocks ++ [State.reset], b.draws⟩))

/-- R50, R205: a byte stored by STR is seen by the very next fetch; the executing instruction completes as it was decoded,
where it stores over its own bytes too. -/
def Obligations.StoreSeenByNextFetch : Prop :=
  ∀ (s : State) (a : Addr), s.pc.toNat % 2 = 0 → fetchWord s = ⟨0x05, a⟩ →
    ∃ t, step s = .next t ∧ t.pc = s.pc + 2 ∧ t.acc = s.acc ∧ t.mem.read a = s.acc ∧
      fetchWord t = ⟨if a = s.pc + 2 then s.acc else s.mem.read (s.pc + 2),
                     if a = s.pc + 3 then s.acc else s.mem.read (s.pc + 3)⟩

/-- R122: a taken jump to an odd target completes, and the next step raises AlignmentError; a breakpoint at the odd target
stops the run successfully first. -/
def Obligations.OddJumpFaultsNext : Prop :=
  ∀ (s : State) (i : Instr), s.pc.toNat % 2 = 0 → decode (fetchWord s) = .instr i → jumpTaken i s = true →
    i.addr.toNat % 2 = 1 →
    ∃ t, step s = .next t ∧ t.pc = i.addr ∧ step t = .fault (.alignmentError i.addr) ∧
      (isBreakpoint t = true → ∀ n, run (n + 1) s = (.breakpoint, t)) ∧
      (isBreakpoint t = false → ∀ n, run (n + 2) s = (.failure (.alignmentError i.addr), t))

/-- R182, R22: a step makes `PC` odd only by a taken jump to that odd address; the advance keeps it even. -/
def Obligations.OddPcOnlyByJump : Prop :=
  ∀ s t : State, step s = .next t →
    ∃ i, decode (fetchWord s) = .instr i ∧
      (t.pc.toNat % 2 = 1 → jumpTaken i s = true ∧ t.pc = i.addr) ∧
      (jumpTaken i s = false → t.pc.toNat = (s.pc.toNat + 2) % 256)

/-- R20, R27, R192: no instruction reads `CYCLES` or `BPT`: with another count and another table a step does the same. -/
def Obligations.StepIgnoresBookkeeping : Prop :=
  ∀ (s : State) (c : Nat) (b : List Breakpoint),
    (∀ t, step s = .next t →
      step { s with cycles := c, bpt := b } = .next { t with cycles := c + 1, bpt := b }) ∧
    (∀ f, step s = .fault f → step { s with cycles := c, bpt := b } = .fault f)

/-- An encoded instruction placed at an even `PC` is what the next step runs, with every operand (R65, R143). The placing,
`withFetchWord`, and all that it leaves alone are the model's choice (log entry 2): no rule describes them. -/
def Obligations.PlacedInstructionRuns : Prop :=
  ∀ (i : Instr) (s : State), s.pc.toNat % 2 = 0 →
    ∃ p u, s.withFetchWord 16 (encode i).toWord16.toNat = p ∧ fetchWord p = encode i ∧
      p.acc = s.acc ∧ p.pc = s.pc ∧ p.cycles = s.cycles ∧ p.bpt = s.bpt ∧
      (∀ a : Addr, a ≠ s.pc → a ≠ s.pc + 1 → p.mem.read a = s.mem.read a) ∧
      exec i p = .next u ∧ step p = .next { u with cycles := s.cycles + 1 }

/-! ### The run loop (spec/50_execution_engine.md) -/

/-- R146: a zero budget succeeds at once and changes nothing, in every state. -/
def Obligations.RunZeroDoesNothing : Prop :=
  ∀ s : State, run 0 s = (.budgetExhausted, s) ∧ (run 0 s).1.ok = true ∧
    ∀ draw, command draw (.run 0) s = (.outcome .budgetExhausted, s)

/-- R147: what a run returns, told by its completed steps alone: BudgetExhausted where all of them complete off every
breakpoint, Breakpoint at the first completed step that lands on one, a failure at the first faulting step. The host's
command is that run. -/
def Obligations.RunLoopRefinesSteps : Prop :=
  ∀ (n : Nat) (s t : State),
    (run n s = (.budgetExhausted, t) ↔ stepsFrom n s = some t ∧ noBreakpointWithin n s) ∧
    (run n s = (.breakpoint, t) ↔
      ∃ k, k < n ∧ stepsFrom (k + 1) s = some t ∧ isBreakpoint t = true ∧ noBreakpointWithin k s) ∧
    (∀ f, run n s = (.failure f, t) ↔
      ∃ k, k < n ∧ stepsFrom k s = some t ∧ step t = .fault f ∧ noBreakpointWithin k s) ∧
    (∀ r, run n s ≠ (.refused r, t)) ∧
    (∀ draw, command draw (.run n) s = (.outcome (run n s).1, (run n s).2))

/-- R164: after a run, `CYCLES` has risen by the number of completed steps: all of the budget, at least one, or fewer than
the budget, by the outcome. -/
def Obligations.RunCountsCompletedSteps : Prop :=
  ∀ (n : Nat) (s : State), ∃ k, k ≤ n ∧ stepsFrom k s = some (run n s).2 ∧ (run n s).2.cycles = s.cycles + k ∧
    ((run n s).1 = .budgetExhausted → k = n) ∧
    ((run n s).1 = .breakpoint → 1 ≤ k) ∧
    (∀ f, (run n s).1 = .failure f → k < n)

/-- R150, R186, R149: a state whose next step faults stays so, and the fault's information is that of the final state. -/
def Obligations.FailedRunStaysFailed : Prop :=
  ∀ (n : Nat) (s t : State) (f : Fault), run n s = (.failure f, t) →
    (∀ m, run (m + 1) t = (.failure f, t)) ∧
    (f = .alignmentError t.pc ∨ f = .decodeError t.pc (t.mem.read t.pc))

/-- R147: a larger budget continues an exhausted run and changes nothing about a run that ended otherwise. -/
def Obligations.LargerBudgetContinues : Prop :=
  ∀ (n m : Nat) (s t : State) (o : RunOutcome), run n s = (o, t) →
    (o = .budgetExhausted → run (n + m) s = run m t) ∧ (o ≠ .budgetExhausted → run (n + m) s = (o, t))

/-- R161: `run(1)` executes exactly one instruction or fails without executing any. -/
def Obligations.SingleStepRun : Prop :=
  ∀ s : State,
    (∀ t, step s = .next t → run 1 s = (if isBreakpoint t then .breakpoint else .budgetExhausted, t)) ∧
    (∀ f, step s = .fault f → run 1 s = (.failure f, s))

/-- R162, R165: a `JMP p` at `p` with a breakpoint there stops after every one of its steps; without one, only the budget
ends it. -/
def Obligations.SelfJumpStopsAtBreakpoint : Prop :=
  ∀ s : State, s.pc.toNat % 2 = 0 → fetchWord s = ⟨0x06, s.pc⟩ →
    (isBreakpoint s = true → ∀ n, run (n + 1) s = (.breakpoint, { s with cycles := s.cycles + 1 })) ∧
    (isBreakpoint s = false → ∀ n, run n s = (.budgetExhausted, { s with cycles := s.cycles + n }))

/-- R203: over all-zero memory every step at an even `PC` fetches and runs an `ADD 0`, which moves `PC` and the counter alone, so that
without breakpoints a run of `n` executes `n` of them; a run from creation is one such. -/
def Obligations.RunFromCreation : Prop :=
  (∀ s : State, s.pc.toNat % 2 = 0 → (∀ a : Addr, s.mem.read a = 0) →
    decode (fetchWord s) = .instr (.add 0) ∧
    step s = .next { s with pc := s.pc + 2, cycles := s.cycles + 1 } ∧
    (s.bpt = [] → ∀ n : Nat, run n s =
      (.budgetExhausted, { s with pc := s.pc + BitVec.ofNat 8 (2 * n), cycles := s.cycles + n }))) ∧
  (∀ n : Nat, run n State.reset =
    (.budgetExhausted, { State.reset with pc := BitVec.ofNat 8 (2 * n), cycles := n }))

/-- R149, R152: `ok` is true of exactly the two successes, each outcome stands for its run status, and the query tells the
two successes apart, after a budget of at least 1. -/
def Obligations.QueryTellsOutcomesApart : Prop :=
  (∀ o : RunOutcome, o.ok = true ↔ o = .breakpoint ∨ o = .budgetExhausted) ∧
  (∀ f : Fault, RunOutcome.breakpoint.status = .stoppedBreakpoint ∧
    RunOutcome.budgetExhausted.status = .stoppedBudgetExhausted ∧ (RunOutcome.failure f).status = .stoppedError) ∧
  (∀ s : State, isBreakpoint s = true ↔ ∃ e ∈ s.bpt, e.address = s.pc) ∧
  (∀ (draw : Nat) (s : State), command draw .isBreakpoint s = (.truth (isBreakpoint s), s)) ∧
  (∀ (n : Nat) (s : State),
    ((run n s).1 = .breakpoint → isBreakpoint (run n s).2 = true) ∧
    (1 ≤ n → (run n s).1 = .budgetExhausted → isBreakpoint (run n s).2 = false))

/-- R148, R163, R192: a run depends on the table only through its set of addresses, and on the counter not at all: the same
outcome, the same processor state and the same rise of the counter. -/
def Obligations.RunSeesBreakpointAddressesOnly : Prop :=
  ∀ (n : Nat) (s u : State), s.acc = u.acc → s.pc = u.pc → s.mem = u.mem →
    (∀ a : Addr, (∃ e ∈ s.bpt, e.address = a) ↔ ∃ e ∈ u.bpt, e.address = a) →
    (run n s).1 = (run n u).1 ∧ (run n s).2.acc = (run n u).2.acc ∧ (run n s).2.pc = (run n u).2.pc ∧
    (run n s).2.mem = (run n u).2.mem ∧
    (run n s).2.cycles + u.cycles = (run n u).2.cycles + s.cycles

/-- R151, R163: the breakpoint table does not change during a run. -/
def Obligations.RunKeepsBreakpoints : Prop :=
  ∀ (n : Nat) (s : State), (run n s).2.bpt = s.bpt

/-- R207: where software meets its obligations over the next `n` steps, a run of that budget does not fail. -/
def Obligations.MeetingObligationsAvoidsFailure : Prop :=
  ∀ (n : Nat) (s : State), meetsObligations n s →
    (run n s).1.ok = true ∧ ((run n s).1 = .breakpoint ∨ (run n s).1 = .budgetExhausted) ∧
    ∀ f, (run n s).1 ≠ .failure f

/-! ### The breakpoint controller (spec/50_execution_engine.md) -/

/-- R153, R154: an insert conflicts, or else finds the table full, or else adds exactly its entry; the first two change
nothing. That the capacity is 128 is the model's reading of the spec's parameter, at its default (log entry 11). -/
def Obligations.InsertOutcome : Prop :=
  Config.bpCapacity = 128 ∧
  ∀ (draw n : Nat) (name : Text) (s : State),
    ((∃ d ∈ s.bpt, d.address.toNat = n % 256 ∨ d.name = name) →
      command draw (.insert n name) s = (.failed .breakpointConflict, s)) ∧
    ((∀ d ∈ s.bpt, d.address.toNat ≠ n % 256 ∧ d.name ≠ name) → Config.bpCapacity ≤ s.bpt.length →
      command draw (.insert n name) s = (.failed .breakpointFull, s)) ∧
    ((∀ d ∈ s.bpt, d.address.toNat ≠ n % 256 ∧ d.name ≠ name) → s.bpt.length < Config.bpCapacity →
      ∃ t, command draw (.insert n name) s = (.ok, { s with bpt := t }) ∧ t.length = s.bpt.length + 1 ∧
        ∀ d, d ∈ t ↔ d ∈ s.bpt ∨ d.address.toNat = n % 256 ∧ d.name = name)

/-- R155, R156: the finds return the entry with the masked address, or with exactly the name, or none; they change no
state. -/
def Obligations.FindsAreExact : Prop :=
  ∀ (draw n : Nat) (name : Text) (s : State), s.wf →
    (∀ e, findByAddress n s = some e ↔ e ∈ s.bpt ∧ e.address.toNat = n % 256) ∧
    (findByAddress n s = none ↔ ∀ e ∈ s.bpt, e.address.toNat ≠ n % 256) ∧
    (∀ e, findByName name s = some e ↔ e ∈ s.bpt ∧ e.name = name) ∧
    (findByName name s = none ↔ ∀ e ∈ s.bpt, e.name ≠ name) ∧
    command draw (.findByAddress n) s = (.entry (findByAddress n s), s) ∧
    command draw (.findByName name) s = (.entry (findByName name s), s)

/-- R157, R158: a delete removes exactly the entry with the masked address, or with the name; with none there it fails
and changes nothing. -/
def Obligations.DeleteOutcome : Prop :=
  ∀ (draw n : Nat) (name : Text) (s : State), s.wf →
    ((∃ e ∈ s.bpt, e.address.toNat = n % 256) → ∃ t,
      command draw (.deleteByAddress n) s = (.ok, { s with bpt := t }) ∧ t.length + 1 = s.bpt.length ∧
      ∀ d, d ∈ t ↔ d ∈ s.bpt ∧ d.address.toNat ≠ n % 256) ∧
    ((∀ e ∈ s.bpt, e.address.toNat ≠ n % 256) →
      command draw (.deleteByAddress n) s = (.failed .notFound, s)) ∧
    ((∃ e ∈ s.bpt, e.name = name) → ∃ t,
      command draw (.deleteByName name) s = (.ok, { s with bpt := t }) ∧ t.length + 1 = s.bpt.length ∧
      ∀ d, d ∈ t ↔ d ∈ s.bpt ∧ d.name ≠ name) ∧
    ((∀ e ∈ s.bpt, e.name ≠ name) → command draw (.deleteByName name) s = (.failed .notFound, s))

/-- R160: deleting an entry makes it unfindable by its address and by its name, and every other entry stays findable by
both. -/
def Obligations.DeletionKeepsOthersFindable : Prop :=
  ∀ (s t : State) (e : Breakpoint), s.wf → e ∈ s.bpt →
    (deleteByAddress e.address.toNat s = .ok t ∨ deleteByName e.name s = .ok t) →
    findByAddress e.address.toNat t = none ∧ findByName e.name t = none ∧
    ∀ d ∈ s.bpt, d ≠ e → findByAddress d.address.toNat t = some d ∧ findByName d.name t = some d

/-- R160: the table is a set: inserting the same entries in another order gives the same state, or fails as well. -/
def Obligations.InsertOrderUnobservable : Prop :=
  ∀ (t : List Breakpoint) (es es' : List (Nat × Text)), bptWf t → es.Perm es' →
    (∀ u, insertAll t es = .ok u ↔ insertAll t es' = .ok u) ∧
    ((∃ f, insertAll t es = .error f) ↔ ∃ f, insertAll t es' = .error f)

/-! ### The host's commands (spec/80_host_interface.md) -/

/-- Every command, every whole run among them, keeps the invariants of R26 and R30. That memory and table are lists in one
canonical order and form, which `State.wf` holds too, is the model's choice (log entries 5 and 6). -/
def Obligations.CommandsKeepInvariant : Prop :=
  ∀ (draw : Nat) (c : Command) (s : State), s.wf → (command draw c s).2.wf

/-- R187, R225: a command that fails changes no state; a failed load rolls back whole. -/
def Obligations.FailedCommandsChangeNothing : Prop :=
  ∀ (draw : Nat) (c : Command) (s : State) (f : CommandFailure),
    (command draw c s).1 = .failed f → (command draw c s).2 = s

/-- R220, R53, R202: which commands write what: only a run, a load and a direct execute write the processor or the counter,
only the registry's commands and a load write the table. -/
def Obligations.CommandsWriteOnlyTheirState : Prop :=
  ∀ (draw : Nat) (c : Command) (s : State),
    (writesProcessor c = false → (command draw c s).2.acc = s.acc ∧ (command draw c s).2.pc = s.pc ∧
      (command draw c s).2.mem = s.mem ∧ (command draw c s).2.cycles = s.cycles) ∧
    (writesBreakpoints c = false → (command draw c s).2.bpt = s.bpt)

/-- R221, R222: the accessors answer with the register, the counter, the number of entries and the masked cell, and change
nothing. -/
def Obligations.AccessorsReadState : Prop :=
  ∀ (draw n : Nat) (s : State),
    command draw .readAcc s = (.byte s.acc, s) ∧ command draw .readPc s = (.byte s.pc, s) ∧
    command draw .readCycles s = (.number s.cycles, s) ∧ command draw .count s = (.number s.bpt.length, s) ∧
    command draw (.readMem n) s = (.byte (s.mem.read (BitVec.ofNat 8 (n % 256))), s)

/-- R232: a direct `execute` completes at any `PC`, odd ones included, and neither counts nor checks breakpoints. -/
def Obligations.DirectExecuteIgnoresStepChecks : Prop :=
  ∀ (draw : Nat) (i : Instr) (s : State), ∃ t,
    command draw (.execute i) s = (.ok, t) ∧ exec i s = .next t ∧ t.cycles = s.cycles ∧ t.bpt = s.bpt ∧
    (jumpTaken i s = false → t.pc.toNat = (s.pc.toNat + 2) % 256)

/-- R227: saving and then loading gives back every piece of the state, in whatever order the breakpoint lines were
written, and whatever state the load replaces. Every order of the lines is some choice's (log entry 7). -/
def Obligations.SaveThenLoadRestoresState : Prop :=
  ∀ s : State, s.wf → (∀ e ∈ s.bpt, lf ∉ e.name) →
    (∀ choice : Nat, ∃ x, saveState true choice s = .ok x ∧
      ∀ (draw : Nat) (u : State), command draw (.loadState (some x)) u = (.ok, s)) ∧
    (∀ es : List Breakpoint, es.Perm s.bpt → ∃ choice, saveState true choice s =
      .ok (joinLines (stateLines s ++ es.map fun e => decimal e.address.toNat ++ ' ' :: e.name)))

/-- R223, R225: a load that succeeds sets every piece of the state from its line, and the table to exactly the file's
entries; the command commits that state, whatever stood before; and a file that passes every check of R224 loads. There are at least 259 lines (R224), and the state meets the
invariants of R26 and R30; the canonical lists that `State.wf` holds too are the model's choice (log entries 5 and 6). -/
def Obligations.LoadCommitsFile : Prop :=
  (∀ (x : Text) (t : State), loadState (some x) = .ok t →
    259 ≤ (splitLines x).length ∧
    (splitLines x)[0]?.bind parseNumber = some t.cycles ∧
    (splitLines x)[1]?.bind parseByte = some t.acc ∧
    (splitLines x)[2]?.bind parseByte = some t.pc ∧
    (∀ a : Addr, (splitLines x)[3 + a.toNat]?.bind parseByte = some (t.mem.read a)) ∧
    (∃ es, parseEntries ((splitLines x).drop 259) = some es ∧ t.bpt.length = es.length ∧
      ∀ d, d ∈ t.bpt ↔ ∃ e ∈ es, d.address.toNat = e.1 ∧ d.name = e.2) ∧
    t.wf ∧
    (∀ (draw : Nat) (u : State), command draw (.loadState (some x)) u = (.ok, t))) ∧
  ∀ x : Text, 259 ≤ (splitLines x).length →
    (∃ n, (splitLines x)[0]?.bind parseNumber = some n) →
    (∀ k, 1 ≤ k → k < 259 → ∃ n, (splitLines x)[k]?.bind parseNumber = some n ∧ n ≤ 255) →
    (∀ l ∈ (splitLines x).drop 259, ∃ e, parseEntry l = some e) →
    (∀ (i j : Nat) (d e : Nat × Text), i < j → ((splitLines x).drop 259)[i]?.bind parseEntry = some d →
      ((splitLines x).drop 259)[j]?.bind parseEntry = some e → d.1 ≠ e.1 ∧ d.2 ≠ e.2) →
    ((splitLines x).drop 259).length ≤ Config.bpCapacity →
    ∃ t, loadState (some x) = .ok t

/-- R224: the files that `load_state` must refuse, each with PersistenceError: a missing one, too few lines, a line that
is no number or over 255, a line that is no breakpoint line or whose address is 256 or more, two that share an address or a
name, too many; the command then answers so and changes nothing. A number and a breakpoint line are the forms of R223 (D15):
digits read as decimal; a number below 256, one space, and the rest of the line. The digits' codes 0x30 to 0x39 are the model's
choice (log entry 10; the spec's G3). -/
def Obligations.LoadRefusesBadFiles : Prop :=
  loadState none = .error .persistenceError ∧
  (∀ (l : Text) (n : Nat), parseNumber l = some n ↔
    l ≠ [] ∧ (∀ c ∈ l, 0x30 ≤ c.toNat ∧ c.toNat ≤ 0x39) ∧ n = l.foldl (fun v c => 10 * v + (c.toNat - 0x30)) 0) ∧
  (∀ (l : Text) (n : Nat) (name : Text), parseEntry l = some (n, name) ↔
    n < 256 ∧ ∃ d, parseNumber d = some n ∧ l = d ++ ' ' :: name) ∧
  (∀ (draw : Nat) (file : Option Text) (s : State), loadState file = .error .persistenceError →
    command draw (.loadState file) s = (.failed .persistenceError, s)) ∧
  ∀ x : Text,
    ((splitLines x).length < 259 → loadState (some x) = .error .persistenceError) ∧
    (∀ (k : Nat) (l : Text), k < 259 → (splitLines x)[k]? = some l → parseNumber l = none →
      loadState (some x) = .error .persistenceError) ∧
    (∀ (k : Nat) (l : Text) (n : Nat), 1 ≤ k → k < 259 → (splitLines x)[k]? = some l → parseNumber l = some n → 255 < n →
      loadState (some x) = .error .persistenceError) ∧
    (∀ l ∈ (splitLines x).drop 259, parseEntry l = none → loadState (some x) = .error .persistenceError) ∧
    (∀ l ∈ (splitLines x).drop 259, ∀ (d name : Text) (n : Nat), l = d ++ ' ' :: name → parseNumber d = some n →
      256 ≤ n → loadState (some x) = .error .persistenceError) ∧
    (∀ (i j : Nat) (l m : Text) (d e : Nat × Text), i < j → ((splitLines x).drop 259)[i]? = some l → ((splitLines x).drop 259)[j]? = some m →
      parseEntry l = some d → parseEntry m = some e → d.1 = e.1 ∨ d.2 = e.2 →
      loadState (some x) = .error .persistenceError) ∧
    (Config.bpCapacity < ((splitLines x).drop 259).length → loadState (some x) = .error .persistenceError)

/-- R226: `save_state` fails exactly where the destination cannot be written or a name holds an LF; else its lines are the
numbers of the state and one line per entry in some order. The command answers with that file, for some order, or with that
failure, and changes no state. -/
def Obligations.SaveWritesStateFile : Prop :=
  (∀ (draw : Nat) (writable : Bool) (s : State), ∃ choice,
    command draw (.saveState writable) s =
      (match saveState writable choice s with
        | .ok x => .text x
        | .error f => .failed f, s)) ∧
  ∀ (writable : Bool) (choice : Nat) (s : State),
    (writable = false ∨ (∃ e ∈ s.bpt, lf ∈ e.name) →
      saveState writable choice s = .error .persistenceError) ∧
    (writable = true → (∀ e ∈ s.bpt, lf ∉ e.name) → ∃ (x : Text) (es : List Breakpoint),
      saveState writable choice s = .ok x ∧ x = joinLines (splitLines x) ∧ es.Perm s.bpt ∧
      splitLines x = stateLines s ++ es.map (fun e => decimal e.address.toNat ++ ' ' :: e.name) ∧ (stateLines s).length = 259 ∧
      (stateLines s)[0]? = some (decimal s.cycles) ∧ (stateLines s)[1]? = some (decimal s.acc.toNat) ∧
      (stateLines s)[2]? = some (decimal s.pc.toNat) ∧
      ∀ a : Addr, (stateLines s)[3 + a.toNat]? = some (decimal (s.mem.read a).toNat)) ∧
    (∀ draw, (command draw (.saveState writable) s).2 = s)

/-- R228, R229: the listing has one line for each of the 128 slots in address order, in the short form for an illegal or
all-zero word and else with the rendering of its mnemonic; R71: the eight renderings, letter for letter. -/
def Obligations.ListingHasEverySlot : Prop :=
  rendering .add = "ADD: ACC <- ACC + [addr]".toList ∧
  rendering .and = "AND: ACC <- ACC & [addr]".toList ∧
  rendering .orr = "ORR: ACC <- ACC | [addr]".toList ∧
  rendering .xor = "XOR: ACC <- ACC ^ [addr]".toList ∧
  rendering .ldr = "LDR: ACC <- [addr]".toList ∧
  rendering .str = "STR: ACC -> [addr]".toList ∧
  rendering .jmp = "JMP: PC  <- addr".toList ∧
  rendering .jne = "JNE: PC  <- addr if ACC != 0".toList ∧
  ∀ s : State, (splitLines (printProgram s)).length = 128 ∧
    printProgram s = joinLines (splitLines (printProgram s)) ∧
    (∀ draw, command draw .printProgram s = (.text (printProgram s), s)) ∧
    ∀ k, k < 128 → ∃ p : Addr, p.toNat = 2 * k ∧
      (splitLines (printProgram s))[k]? = some (
        decimal p.toNat ++ [tab] ++ decimal (s.mem.read p).toNat ++ [tab] ++ decimal (s.mem.read (p + 1)).toNat ++
        match decode ⟨s.mem.read p, s.mem.read (p + 1)⟩ with
        | .invalid _ => []
        | .instr i =>
          if s.mem.read p = 0 ∧ s.mem.read (p + 1) = 0 then [] else [tab, ':', tab] ++ rendering i.opcode)

/-- R231, R191, R202: a copy is a new block with the same state, or replaces the whole of an existing one, and a command to
the one block leaves the others as they were. That a new block stands after the others is the model's choice (log
entry 8). -/
def Obligations.CopyIsIndependent : Prop :=
  (∀ (b : Blocks) (src : Nat) (s : State), b.blocks[src]? = some s →
    (∃ b', blocksCommand (.copy src none) b = some (.block b.blocks.length, b') ∧
      b'.blocks[b.blocks.length]? = some s ∧ ∀ j, j < b.blocks.length → b'.blocks[j]? = b.blocks[j]?) ∧
    (∀ k, k < b.blocks.length → ∃ b', blocksCommand (.copy src (some k)) b = some (.block k, b') ∧
      b'.blocks.length = b.blocks.length ∧ b'.blocks[k]? = some s ∧ ∀ j, j ≠ k → b'.blocks[j]? = b.blocks[j]?)) ∧
  (∀ (b : Blocks) (j : Nat) (c : Command) (s : State), b.blocks[j]? = some s →
    ∃ draw d, blocksCommand (.onBlock j c) b = some (.response (command draw c s).1, d) ∧
      d.blocks[j]? = some (command draw c s).2 ∧ ∀ k, k ≠ j → d.blocks[k]? = b.blocks[k]?)

/-- R231, R202: a move gives the destination, a new block or the whole of an existing one, the source's state and leaves in
the source some state that meets R26 and R30; nothing else is said of it, and no other block is touched. The canonical lists
of that state (log entries 5 and 6), the place of a new block, and that a move onto itself leaves such a state (log entry 8)
are the model's choices. -/
def Obligations.MoveGivesSourceState : Prop :=
  ∀ (b : Blocks) (src : Nat) (s : State), b.blocks[src]? = some s →
    (∃ b' u, blocksCommand (.move src none) b = some (.block b.blocks.length, b') ∧
      b'.blocks[b.blocks.length]? = some s ∧ b'.blocks[src]? = some u ∧ u.wf ∧
      ∀ j, j < b.blocks.length → j ≠ src → b'.blocks[j]? = b.blocks[j]?) ∧
    (∀ k, k < b.blocks.length → ∃ b' u, blocksCommand (.move src (some k)) b = some (.block k, b') ∧
      b'.blocks.length = b.blocks.length ∧ (k ≠ src → b'.blocks[k]? = some s) ∧ b'.blocks[src]? = some u ∧ u.wf ∧
      ∀ j, j ≠ k → j ≠ src → b'.blocks[j]? = b.blocks[j]?)

/-- Every command to the blocks, a move among them, keeps the invariants of R26 and R30 in all of them. That memory and
table are lists in one canonical order and form, which `State.wf` holds too, is the model's choice (log entries 5 and 6). -/
def Obligations.BlocksKeepInvariant : Prop :=
  ∀ (c : BlocksCommand) (b b' : Blocks) (r : BlocksResponse), (∀ s ∈ b.blocks, s.wf) →
    blocksCommand c b = some (r, b') → ∀ s ∈ b'.blocks, s.wf

/-- R180: the codes of the two faults and the four command failures. -/
def Obligations.FailureCodes : Prop :=
  (∀ (p : Addr) (o : Byte), faultCode (.decodeError p o) = 1) ∧ (∀ p : Addr, faultCode (.alignmentError p) = 2) ∧
  failureCode .breakpointConflict = 3 ∧ failureCode .breakpointFull = 4 ∧ failureCode .notFound = 5 ∧
  failureCode .persistenceError = 6

/-- R72: a number is decimal, or hexadecimal after `0x`, and in [0, 255]; an instruction line `MNEMONIC n`, under the eight
names of R63, assembles to the opcode byte and `n` at the address `.org` sets, and to an assembly error where that address is
odd. The blanks between a line's parts, its end, and either case of the digits are the model's choice (log entry 9). -/
def Obligations.InstructionLineAssembles : Prop :=
  [Opcode.add, .and, .orr, .xor, .ldr, .str, .jmp, .jne].map mnemonic =
    ["ADD", "AND", "ORR", "XOR", "LDR", "STR", "JMP", "JNE"].map String.toList ∧
  (∀ (x : Text) (n : Nat), asmNumber x = some n ↔ n < 256 ∧ (parseNumber x = some n ∨
    ∃ (ds : Text) (vs : List Nat), x = '0' :: 'x' :: ds ∧ ds ≠ [] ∧ n = vs.foldl (fun a v => 16 * a + v) 0 ∧
      List.Forall₂ (fun c v => "0123456789abcdef".toList[v]? = some c ∨ "0123456789ABCDEF".toList[v]? = some c) ds vs)) ∧
  (∀ n : Nat, n < 256 → asmNumber (decimal n) = some n) ∧
  ∀ (op : Opcode) (y x : Text) (k n : Nat), asmNumber y = some k → asmNumber x = some n →
    assemble (joinLines [".org ".toList ++ y, mnemonic op ++ ' ' :: x]) =
      if k % 2 = 0 then some [(k, op.byte), (k + 1, BitVec.ofNat 8 n)] else none

/-- R72: `.byte n` places one byte, at an odd address too; a label names the current address, before a statement or alone, and
stands for `n`, above its line or below; a comment changes nothing. Which texts may be labels, the blanks between a line's parts
and its end are the model's choice (log entry 9). -/
def Obligations.SourceFormsAssemble : Prop :=
  (∀ (y x : Text) (k n : Nat), asmNumber y = some k → asmNumber x = some n →
    assemble (joinLines [".org ".toList ++ y, ".byte ".toList ++ x]) = some [(k, BitVec.ofNat 8 n)]) ∧
  (∀ (op op' : Opcode) (y x l : Text) (k n : Nat), asmNumber y = some k → k % 2 = 0 → k < 254 → asmNumber x = some n →
    isLabelText l = true →
    assemble (joinLines [".org ".toList ++ y, mnemonic op ++ ' ' :: x, l ++ ':' :: ' ' :: mnemonic op' ++ ' ' :: l]) =
      some [(k, op.byte), (k + 1, BitVec.ofNat 8 n), (k + 2, op'.byte), (k + 3, BitVec.ofNat 8 (k + 2))]) ∧
  (∀ (op : Opcode) (y z x l : Text) (k m n : Nat), asmNumber y = some k → k % 2 = 0 → asmNumber z = some m → m ≠ k →
    m ≠ k + 1 → asmNumber x = some n → isLabelText l = true →
    assemble (joinLines [".org ".toList ++ y, mnemonic op ++ ' ' :: l, ".org ".toList ++ z,
        l ++ ':' :: " .byte ".toList ++ x]) =
      some [(k, op.byte), (k + 1, BitVec.ofNat 8 m), (m, BitVec.ofNat 8 n)]) ∧
  (∀ (y x l : Text) (k n : Nat), asmNumber y = some k → k < 255 → asmNumber x = some n → isLabelText l = true →
    assemble (joinLines [".org ".toList ++ y, ".byte ".toList ++ x, l ++ [':'], ".byte ".toList ++ l]) =
      some [(k, BitVec.ofNat 8 n), (k + 1, BitVec.ofNat 8 (k + 1))]) ∧
  (∀ (ls ms : List Text) (line comment : Text), (∀ l ∈ ls ++ ms, lf ∉ l) → lf ∉ line → lf ∉ comment →
    assemble (joinLines (ls ++ (line ++ ';' :: comment) :: ms)) = assemble (joinLines (ls ++ line :: ms)))

/-- R223, R226, R228, R229 (D15): the text every file and listing is written in. LF ends a line, one after the last line starts
no new one, and a number is printed as its decimal digits without leading zeros. The codes, LF 0x0A, TAB 0x09 and the digits 0x30
to 0x39, are the model's choice (log entry 10; the spec's G3). -/
def Obligations.LinesAndNumbersOfTexts : Prop :=
  lf.toNat = 0x0A ∧ tab.toNat = 0x09 ∧ splitLines [] = [] ∧
  (∀ l x : Text, lf ∉ l → splitLines (l ++ lf :: x) = l :: splitLines x) ∧
  (∀ l : Text, l ≠ [] → lf ∉ l → splitLines l = [l]) ∧
  joinLines [] = [] ∧ (∀ (l : Text) (ls : List Text), joinLines (l :: ls) = l ++ lf :: joinLines ls) ∧
  decimal 0 = ['0'] ∧
  ∀ n : Nat, n ≠ 0 → (∃ c ds, decimal n = c :: ds ∧ c ≠ '0') ∧
    (∀ c ∈ decimal n, 0x30 ≤ c.toNat ∧ c.toNat ≤ 0x39) ∧
    (decimal n).foldl (fun v c => 10 * v + (c.toNat - 0x30)) 0 = n
end

