-- ==== Sys2Proof/Laws/State.lean ====
section
/-! SUPPORT. What each update of one piece of state leaves in each piece (one lemma per field per update). -/

namespace Sys2Proof.Machine

@[simp] theorem State.withAcc_acc (s : State) (v : Byte) : (s.withAcc v).acc = v := rfl
@[simp] theorem State.withAcc_pc (s : State) (v : Byte) : (s.withAcc v).pc = s.pc := rfl
@[simp] theorem State.withAcc_mem (s : State) (v : Byte) : (s.withAcc v).mem = s.mem := rfl
@[simp] theorem State.withAcc_cycles (s : State) (v : Byte) : (s.withAcc v).cycles = s.cycles := rfl
@[simp] theorem State.withAcc_bpt (s : State) (v : Byte) : (s.withAcc v).bpt = s.bpt := rfl

@[simp] theorem State.withPc_acc (s : State) (v : Addr) : (s.withPc v).acc = s.acc := rfl
@[simp] theorem State.withPc_pc (s : State) (v : Addr) : (s.withPc v).pc = v := rfl
@[simp] theorem State.withPc_mem (s : State) (v : Addr) : (s.withPc v).mem = s.mem := rfl
@[simp] theorem State.withPc_cycles (s : State) (v : Addr) : (s.withPc v).cycles = s.cycles := rfl
@[simp] theorem State.withPc_bpt (s : State) (v : Addr) : (s.withPc v).bpt = s.bpt := rfl

@[simp] theorem State.withMem_acc (s : State) (v : Memory) : (s.withMem v).acc = s.acc := rfl
@[simp] theorem State.withMem_pc (s : State) (v : Memory) : (s.withMem v).pc = s.pc := rfl
@[simp] theorem State.withMem_mem (s : State) (v : Memory) : (s.withMem v).mem = v := rfl
@[simp] theorem State.withMem_cycles (s : State) (v : Memory) : (s.withMem v).cycles = s.cycles := rfl
@[simp] theorem State.withMem_bpt (s : State) (v : Memory) : (s.withMem v).bpt = s.bpt := rfl

@[simp] theorem State.withCycles_acc (s : State) (v : Nat) : (s.withCycles v).acc = s.acc := rfl
@[simp] theorem State.withCycles_pc (s : State) (v : Nat) : (s.withCycles v).pc = s.pc := rfl
@[simp] theorem State.withCycles_mem (s : State) (v : Nat) : (s.withCycles v).mem = s.mem := rfl
@[simp] theorem State.withCycles_cycles (s : State) (v : Nat) : (s.withCycles v).cycles = v := rfl
@[simp] theorem State.withCycles_bpt (s : State) (v : Nat) : (s.withCycles v).bpt = s.bpt := rfl

@[simp] theorem State.withBpt_acc (s : State) (v : List Breakpoint) : (s.withBpt v).acc = s.acc := rfl
@[simp] theorem State.withBpt_pc (s : State) (v : List Breakpoint) : (s.withBpt v).pc = s.pc := rfl
@[simp] theorem State.withBpt_mem (s : State) (v : List Breakpoint) : (s.withBpt v).mem = s.mem := rfl
@[simp] theorem State.withBpt_cycles (s : State) (v : List Breakpoint) : (s.withBpt v).cycles = s.cycles := rfl
@[simp] theorem State.withBpt_bpt (s : State) (v : List Breakpoint) : (s.withBpt v).bpt = v := rfl

@[simp] theorem countCycle_acc (s : State) : (countCycle s).acc = s.acc := rfl
@[simp] theorem countCycle_pc (s : State) : (countCycle s).pc = s.pc := rfl
@[simp] theorem countCycle_mem (s : State) : (countCycle s).mem = s.mem := rfl
@[simp] theorem countCycle_cycles (s : State) : (countCycle s).cycles = s.cycles + 1 := rfl
@[simp] theorem countCycle_bpt (s : State) : (countCycle s).bpt = s.bpt := rfl

@[simp] theorem wrapRaw_acc (r : RawResult) (s : State) : (wrapRaw r s).acc = maskToByte r.acc := rfl
@[simp] theorem wrapRaw_pc (r : RawResult) (s : State) : (wrapRaw r s).pc = maskToByte (r.pc + 2) := rfl
@[simp] theorem wrapRaw_mem (r : RawResult) (s : State) : (wrapRaw r s).mem = r.mem := rfl
@[simp] theorem wrapRaw_cycles (r : RawResult) (s : State) : (wrapRaw r s).cycles = s.cycles := rfl
@[simp] theorem wrapRaw_bpt (r : RawResult) (s : State) : (wrapRaw r s).bpt = s.bpt := rfl

/-- Two states with the same five pieces are the same state (R20). -/
theorem State.eq_of_fields (s t : State) (ha : s.acc = t.acc) (hp : s.pc = t.pc) (hm : s.mem = t.mem)
    (hc : s.cycles = t.cycles) (hb : s.bpt = t.bpt) : s = t := by
  cases s; cases t; simp_all

end Sys2Proof.Machine
end

