-- ==== Sys2Proof/Laws/Breakpoints.lean ====
section
/-! SUPPORT. The breakpoint table: what each shared operation on it does, and that it keeps the invariants of
spec/10_state.md R26. -/

namespace Sys2Proof.Machine

/-- Placing an entry adds it and nothing else. -/
theorem placeEntry_perm (t : List Breakpoint) (e : Breakpoint) : (placeEntry t e).Perm (e :: t) := by
  induction t with
  | nil => exact List.Perm.refl _
  | cons d t ih =>
    unfold placeEntry
    split
    · exact List.Perm.refl _
    · exact (ih.cons d).trans (List.Perm.swap e d t)

theorem mem_placeEntry (t : List Breakpoint) (e d : Breakpoint) : d ∈ placeEntry t e ↔ d = e ∨ d ∈ t := by
  rw [(placeEntry_perm t e).mem_iff, List.mem_cons]

theorem length_placeEntry (t : List Breakpoint) (e : Breakpoint) : (placeEntry t e).length = t.length + 1 :=
  (placeEntry_perm t e).length_eq

theorem placeEntry_sorted (t : List Breakpoint) (e : Breakpoint)
    (ht : t.Pairwise fun c d => c.address.toNat < d.address.toNat) (he : ∀ d ∈ t, d.address ≠ e.address) :
    (placeEntry t e).Pairwise fun c d => c.address.toNat < d.address.toNat := by
  induction t with
  | nil => simp [placeEntry]
  | cons d t ih =>
    rw [List.pairwise_cons] at ht
    have hd : d.address.toNat ≠ e.address.toNat := fun h => he d (by simp) (BitVec.eq_of_toNat_eq h)
    unfold placeEntry
    split
    · next h =>
      refine List.pairwise_cons.2 ⟨fun c hc => ?_, List.pairwise_cons.2 ht⟩
      rcases List.mem_cons.1 hc with rfl | hc
      · exact h
      · exact lt_trans h (ht.1 c hc)
    · refine List.pairwise_cons.2 ⟨fun c hc => ?_, ih ht.2 fun c hc => he c (by simp [hc])⟩
      rcases (mem_placeEntry t e c).1 hc with rfl | hc
      · omega
      · exact ht.1 c hc

theorem conflicts_iff (t : List Breakpoint) (e : Breakpoint) :
    conflicts t e = true ↔ ∃ d ∈ t, d.address = e.address ∨ d.name = e.name := by
  simp [conflicts]

/-- What a completed insert on the table is: no conflict, room left, and one more entry. -/
theorem insertEntry_ok (t t' : List Breakpoint) (e : Breakpoint) :
    insertEntry t e = .ok t' ↔ conflicts t e = false ∧ t.length < Config.bpCapacity ∧ t' = placeEntry t e := by
  unfold insertEntry
  cases hc : conflicts t e
  · by_cases hl : Config.bpCapacity ≤ t.length
    · simp [hl]
    · simp [hl, eq_comm, Nat.lt_of_not_le hl]
  · simp

/-- A completed insert keeps the table's invariants. -/
theorem insertEntry_wf (t t' : List Breakpoint) (e : Breakpoint) (ht : bptWf t) (h : insertEntry t e = .ok t') :
    bptWf t' := by
  obtain ⟨hc, hl, rfl⟩ := (insertEntry_ok t t' e).1 h
  have hn : ∀ d ∈ t, d.address ≠ e.address ∧ d.name ≠ e.name := by
    intro d hd
    have : ¬ conflicts t e = true := by simp [hc]
    rw [conflicts_iff] at this
    exact ⟨fun h => this ⟨d, hd, .inl h⟩, fun h => this ⟨d, hd, .inr h⟩⟩
  refine ⟨placeEntry_sorted t e ht.1 fun d hd => (hn d hd).1, ?_, ?_⟩
  · rw [((placeEntry_perm t e).map _).nodup_iff, List.map_cons, List.nodup_cons]
    refine ⟨fun hm => ?_, ht.2.1⟩
    obtain ⟨d, hd, hde⟩ := List.mem_map.1 hm
    exact (hn d hd).2 hde
  · rw [length_placeEntry]; omega

theorem bptWf_nil : bptWf [] := by simp [bptWf]

/-- Leaving entries out keeps the table's invariants. -/
theorem bptWf_filter (t : List Breakpoint) (p : Breakpoint → Bool) (ht : bptWf t) : bptWf (t.filter p) :=
  ⟨ht.1.filter p, List.Nodup.sublist (List.filter_sublist.map _) ht.2.1,
    le_trans (List.length_filter_le p t) ht.2.2⟩

theorem insertAll_wf (es : List (Nat × Text)) (t t' : List Breakpoint) (ht : bptWf t) (h : insertAll t es = .ok t') :
    bptWf t' := by
  induction es generalizing t with
  | nil => cases h; exact ht
  | cons e es ih =>
    obtain ⟨n, name⟩ := e
    simp only [insertAll] at h
    split at h
    · next t1 h1 => exact ih t1 (insertEntry_wf t t1 _ ht h1) h
    · cases h

theorem insertWhatFits_wf (es : List (Nat × Text)) (t : List Breakpoint) (ht : bptWf t) :
    bptWf (insertWhatFits t es) := by
  induction es generalizing t with
  | nil => exact ht
  | cons e es ih =>
    obtain ⟨n, name⟩ := e
    simp only [insertWhatFits]
    split
    · next t1 h1 => exact ih t1 (insertEntry_wf t t1 _ ht h1)
    · exact ih t ht

/-- Tables in canonical order with the same entries are the same list. -/
theorem bpt_eq_of_perm (t u : List Breakpoint) (ht : bptWf t) (hu : bptWf u) (h : t.Perm u) : t = u :=
  h.eq_of_pairwise (fun _ _ _ _ h1 h2 => absurd h1 (by omega)) ht.1 hu.1

theorem bptWf_addresses_nodup (t : List Breakpoint) (ht : bptWf t) : (t.map Breakpoint.address).Nodup := by
  refine List.pairwise_map.2 (ht.1.imp ?_)
  intro a b hab h
  rw [h] at hab
  exact lt_irrefl _ hab

/-- R225 said once: inserting entries into a legal table completes exactly with the legal table that holds the old and
the new entries. -/
theorem insertAll_ok_iff (es : List (Nat × Text)) (t t' : List Breakpoint) (ht : bptWf t) :
    insertAll t es = .ok t' ↔ bptWf t' ∧ t'.Perm (t ++ es.map fun e => entryOf e.1 e.2) := by
  induction es generalizing t with
  | nil =>
    simp only [insertAll, List.map_nil, List.append_nil, Except.ok.injEq]
    constructor
    · rintro rfl; exact ⟨ht, List.Perm.refl _⟩
    · rintro ⟨hw, hp⟩; exact (bpt_eq_of_perm t' t hw ht hp).symm
  | cons e es ih =>
    obtain ⟨n, name⟩ := e
    have hcat : ∀ l : List Breakpoint, (placeEntry t (entryOf n name) ++ l).Perm (t ++ (entryOf n name :: l)) :=
      fun l => ((placeEntry_perm t _).append_right l).trans List.perm_middle.symm
    simp only [insertAll, List.map_cons]
    split
    · next t1 h1 =>
      rw [ih t1 (insertEntry_wf t t1 _ ht h1)]
      obtain ⟨-, -, rfl⟩ := (insertEntry_ok t t1 _).1 h1
      exact and_congr_right fun _ => ⟨fun h => h.trans (hcat _), fun h => h.trans (hcat _).symm⟩
    · next f h1 =>
      refine ⟨fun h => (by cases h), fun ⟨hw, hp⟩ => absurd h1 ?_⟩
      have hlen := hp.length_eq
      simp only [List.length_append, List.length_cons] at hlen
      have hadd := (hp.map Breakpoint.address).nodup_iff.1 (bptWf_addresses_nodup t' hw)
      have hnam := (hp.map Breakpoint.name).nodup_iff.1 hw.2.1
      simp only [List.map_append, List.map_cons, List.nodup_append, List.mem_cons, List.mem_map] at hadd hnam
      have hok : insertEntry t (entryOf n name) = .ok (placeEntry t (entryOf n name)) := by
        refine (insertEntry_ok _ _ _).2 ⟨?_, by have := hw.2.2; omega, rfl⟩
        rw [Bool.eq_false_iff, Ne, conflicts_iff]
        rintro ⟨d, hd, h | h⟩
        · exact hadd.2.2 _ ⟨d, hd, rfl⟩ _ (.inl rfl) h
        · exact hnam.2.2 _ ⟨d, hd, rfl⟩ _ (.inl rfl) h
      rw [hok]
      simp

end Sys2Proof.Machine
end

