-- ==== Sys2Proof/Laws/Memory.lean ====
section
/-! SUPPORT. Memory: a read after a write, the canonical form, and the memory of 256 given bytes. -/

namespace Sys2Proof.Machine

@[simp] theorem Memory.read_nil (a : Addr) : Memory.read [] a = Memory.resetByte := rfl

theorem Memory.read_cons (k : Nat) (v : Byte) (m : Memory) (a : Addr) :
    Memory.read ((k, v) :: m) a = if k = a.toNat then v else Memory.read m a := rfl

theorem Memory.read_erase_same (m : Memory) (a : Addr) : (m.erase a).read a = Memory.resetByte := by
  induction m with
  | nil => rfl
  | cons c m ih =>
    unfold Memory.erase at *
    by_cases h : c.1 = a.toNat
    · simpa [h] using ih
    · simpa [h, Memory.read] using ih

theorem Memory.read_erase_other (m : Memory) (a b : Addr) (hab : b ≠ a) : (m.erase a).read b = m.read b := by
  have hn : a.toNat ≠ b.toNat := fun h => hab (BitVec.eq_of_toNat_eq h.symm)
  induction m with
  | nil => rfl
  | cons c m ih =>
    unfold Memory.erase at *
    by_cases h : c.1 = a.toNat
    · simpa [h, Memory.read, hn] using ih
    · rw [List.filter_cons_of_pos (by simpa using h), Memory.read, Memory.read, ih]

theorem Memory.read_place_other (m : Memory) (a b : Addr) (v : Byte) (hab : b ≠ a) :
    (m.place a v).read b = m.read b := by
  have hn : a.toNat ≠ b.toNat := fun h => hab (BitVec.eq_of_toNat_eq h.symm)
  induction m with
  | nil => simp [Memory.place, Memory.read, hn]
  | cons c m ih =>
    obtain ⟨k, w⟩ := c
    by_cases h : a.toNat < k <;> simp [Memory.place, h, Memory.read, hn, ih]

theorem Memory.read_place_same (m : Memory) (a : Addr) (v : Byte) (hm : ∀ c ∈ m, c.1 ≠ a.toNat) :
    (m.place a v).read a = v := by
  induction m with
  | nil => simp [Memory.place, Memory.read]
  | cons c m ih =>
    obtain ⟨k, w⟩ := c
    have hk : k ≠ a.toNat := hm (k, w) (by simp)
    have ih' := ih fun c hc => hm c (by simp [hc])
    by_cases h : a.toNat < k
    · simp [Memory.place, h, Memory.read]
    · simp [Memory.place, h, Memory.read, hk, ih']

theorem Memory.mem_erase (m : Memory) (a : Addr) (c : Host.Cell) :
    c ∈ m.erase a ↔ c ∈ m ∧ c.1 ≠ a.toNat := by
  simp [Memory.erase]

theorem Memory.mem_place (m : Memory) (a : Addr) (v : Byte) (c : Host.Cell) :
    c ∈ m.place a v ↔ c = (a.toNat, v) ∨ c ∈ m := by
  induction m with
  | nil => simp [Memory.place]
  | cons d m ih =>
    obtain ⟨k, w⟩ := d
    by_cases h : a.toNat < k
    · simp [Memory.place, h]
    · simp only [Memory.place, h, if_false, List.mem_cons, ih]; tauto

/-- R7, R44: a read after a write to the same cell gives the value written. -/
@[simp] theorem Memory.read_write_same (m : Memory) (a : Addr) (v : Byte) : (m.write a v).read a = v := by
  unfold Memory.write
  split
  · next h => rw [Memory.read_erase_same, h]
  · exact Memory.read_place_same _ _ _ fun c hc => ((Memory.mem_erase m a c).1 hc).2

/-- R101: a write leaves every other cell alone. -/
theorem Memory.read_write_other (m : Memory) (a b : Addr) (v : Byte) (hab : b ≠ a) :
    (m.write a v).read b = m.read b := by
  unfold Memory.write
  split
  · exact Memory.read_erase_other m a b hab
  · rw [Memory.read_place_other _ _ _ _ hab, Memory.read_erase_other m a b hab]

theorem Memory.read_write (m : Memory) (a b : Addr) (v : Byte) :
    (m.write a v).read b = if b = a then v else m.read b := by
  split
  · next h => rw [h, Memory.read_write_same]
  · next h => exact Memory.read_write_other m a b v h

theorem Memory.erase_wf (m : Memory) (a : Addr) (hm : m.wf) : (m.erase a).wf :=
  ⟨hm.1.filter _, fun c hc => hm.2 c ((Memory.mem_erase m a c).1 hc).1⟩

theorem Memory.place_sorted (m : Memory) (a : Addr) (v : Byte) (hs : m.Pairwise fun c d => c.1 < d.1)
    (ha : ∀ c ∈ m, c.1 ≠ a.toNat) : (m.place a v).Pairwise fun c d => c.1 < d.1 := by
  induction m with
  | nil => simp [Memory.place]
  | cons d m ih =>
    obtain ⟨k, w⟩ := d
    have hk : k ≠ a.toNat := ha (k, w) (by simp)
    rw [List.pairwise_cons] at hs
    by_cases h : a.toNat < k
    · simp only [Memory.place, h, if_true, List.pairwise_cons]
      refine ⟨fun c hc => ?_, hs⟩
      rcases List.mem_cons.1 hc with rfl | hc
      · exact h
      · exact lt_trans h (hs.1 c hc)
    · simp only [Memory.place, h, if_false, List.pairwise_cons]
      refine ⟨fun c hc => ?_, ih hs.2 fun c hc => ha c (by simp [hc])⟩
      rcases (Memory.mem_place m a v c).1 hc with rfl | hc
      · simp only; omega
      · exact hs.1 c hc

/-- Every write keeps the canonical form. -/
theorem Memory.write_wf (m : Memory) (a : Addr) (v : Byte) (hm : m.wf) : (m.write a v).wf := by
  unfold Memory.write
  split
  · exact Memory.erase_wf m a hm
  · next hv =>
    have he := Memory.erase_wf m a hm
    refine ⟨Memory.place_sorted _ a v he.1 fun c hc => ((Memory.mem_erase m a c).1 hc).2, fun c hc => ?_⟩
    rcases (Memory.mem_place _ a v c).1 hc with rfl | hc
    · exact ⟨a.isLt, hv⟩
    · exact he.2 c hc

theorem Memory.nil_wf : Memory.wf [] := by simp [Memory.wf]

theorem Memory.mem_ofBytesAt (k : Nat) (bs : List Byte) (c : Host.Cell) (hc : c ∈ Memory.ofBytesAt k bs) :
    k ≤ c.1 ∧ c.1 < k + bs.length ∧ c.2 ≠ Memory.resetByte := by
  induction bs generalizing k with
  | nil => simp [Memory.ofBytesAt] at hc
  | cons b bs ih =>
    by_cases h : b = Memory.resetByte
    · simp only [Memory.ofBytesAt, h, if_true] at hc
      have := ih (k + 1) hc
      simp only [List.length_cons]
      exact ⟨by omega, by omega, this.2.2⟩
    · simp only [Memory.ofBytesAt, h, if_false, List.mem_cons] at hc
      simp only [List.length_cons]
      rcases hc with rfl | hc
      · exact ⟨le_refl _, by simp only; omega, h⟩
      · have := ih (k + 1) hc
        exact ⟨by omega, by omega, this.2.2⟩

theorem Memory.ofBytesAt_sorted (k : Nat) (bs : List Byte) :
    (Memory.ofBytesAt k bs).Pairwise fun c d => c.1 < d.1 := by
  induction bs generalizing k with
  | nil => simp [Memory.ofBytesAt]
  | cons b bs ih =>
    by_cases h : b = Memory.resetByte
    · simpa [Memory.ofBytesAt, h] using ih (k + 1)
    · simp only [Memory.ofBytesAt, h, if_false, List.pairwise_cons]
      exact ⟨fun c hc => by have := Memory.mem_ofBytesAt (k + 1) bs c hc; show k < c.1; omega, ih (k + 1)⟩

/-- The memory of given bytes is in canonical form. -/
theorem Memory.ofBytes_wf (bs : List Byte) : (Memory.ofBytes bs).wf := by
  refine ⟨Memory.ofBytesAt_sorted 0 _, fun c hc => ?_⟩
  have h := Memory.mem_ofBytesAt 0 _ c hc
  have hl : (bs.take Config.memSize).length ≤ Config.memSize := List.length_take_le _ _
  exact ⟨by omega, h.2.2⟩

theorem Memory.read_ofBytesAt (k : Nat) (bs : List Byte) (a : Addr) (hk : k ≤ a.toNat) :
    (Memory.ofBytesAt k bs).read a = (bs[a.toNat - k]?).getD Memory.resetByte := by
  induction bs generalizing k with
  | nil => simp [Memory.ofBytesAt]
  | cons b bs ih =>
    by_cases e : k = a.toNat
    · by_cases h : b = Memory.resetByte
      · have hn : ∀ m : Memory, (∀ c ∈ m, c.1 ≠ a.toNat) → m.read a = Memory.resetByte := by
          intro m
          induction m with
          | nil => intro _; rfl
          | cons c m ihm =>
            intro hc
            rw [Memory.read, if_neg (hc c (by simp))]
            exact ihm fun d hd => hc d (by simp [hd])
        simp only [Memory.ofBytesAt, h, if_true]
        rw [hn _ fun c hc => by have := Memory.mem_ofBytesAt (k + 1) bs c hc; omega]
        simp [e]
      · simp [Memory.ofBytesAt, h, Memory.read, e]
    · have hk' : k + 1 ≤ a.toNat := by omega
      have hi : a.toNat - k = (a.toNat - (k + 1)) + 1 := by omega
      rw [hi, List.getElem?_cons_succ, ← ih (k + 1) hk']
      by_cases h : b = Memory.resetByte
      · simp [Memory.ofBytesAt, h]
      · simp [Memory.ofBytesAt, h, Memory.read, e]

/-- Cell `a` of the memory of given bytes is byte `a`; cells past the bytes hold the reset value. -/
theorem Memory.read_ofBytes (bs : List Byte) (a : Addr) :
    (Memory.ofBytes bs).read a = (bs[a.toNat]?).getD Memory.resetByte := by
  rw [Memory.ofBytes, Memory.read_ofBytesAt 0 _ a (Nat.zero_le _), Nat.sub_zero,
    List.getElem?_take_of_lt (show a.toNat < Config.memSize from a.isLt)]

theorem Memory.read_eq_of_mem (m : Memory) (hm : m.Pairwise fun c d => c.1 < d.1) (c : Host.Cell) (hc : c ∈ m)
    (a : Addr) (ha : a.toNat = c.1) : m.read a = c.2 := by
  induction m with
  | nil => simp at hc
  | cons d m ih =>
    rw [List.pairwise_cons] at hm
    rcases List.mem_cons.1 hc with rfl | hc
    · simp [Memory.read, ha]
    · have := hm.1 c hc
      rw [Memory.read, if_neg (by omega)]
      exact ih hm.2 hc

theorem Memory.mem_of_read (m : Memory) (a : Addr) (h : m.read a ≠ Memory.resetByte) :
    (a.toNat, m.read a) ∈ m := by
  induction m with
  | nil => simp [Memory.read] at h
  | cons d m ih =>
    obtain ⟨k, w⟩ := d
    by_cases e : k = a.toNat
    · simp [Memory.read, e]
    · rw [Memory.read, if_neg e] at h ⊢
      exact List.mem_cons_of_mem _ (ih h)

/-- Memories in canonical form that read the same everywhere are the same list. -/
theorem Memory.eq_of_read (m n : Memory) (hm : m.wf) (hn : n.wf) (h : ∀ a, m.read a = n.read a) : m = n := by
  have hsub : ∀ p q : Memory, p.wf → q.wf → (∀ a, p.read a = q.read a) → ∀ c ∈ p, c ∈ q := by
    intro p q hp _ hr c hc
    have hlt := (hp.2 c hc).1
    have ha : (BitVec.ofNat 8 c.1).toNat = c.1 := by
      simpa using Nat.mod_eq_of_lt (show c.1 < 2 ^ 8 from hlt)
    have hv := Memory.read_eq_of_mem p hp.1 c hc _ ha
    have hq : q.read (BitVec.ofNat 8 c.1) ≠ Memory.resetByte := by
      rw [← hr, hv]; exact (hp.2 c hc).2
    have := Memory.mem_of_read q _ hq
    rwa [ha, ← hr, hv] at this
  have nodup : ∀ p : Memory, p.wf → p.Nodup := fun p hp => by
    refine hp.1.imp ?_
    rintro a b hab rfl
    exact lt_irrefl _ hab
  have hperm : m.Perm n := (List.perm_ext_iff_of_nodup (nodup m hm) (nodup n hn)).2 fun c =>
    ⟨hsub m n hm hn h c, hsub n m hn hm (fun a => (h a).symm) c⟩
  exact hperm.eq_of_pairwise (fun a b _ _ h1 h2 => absurd h1 (by omega)) hm.1 hn.1

theorem Memory.length_bytes (m : Memory) : m.bytes.length = Config.memSize := by simp [Memory.bytes]

/-- The 256 bytes of a memory give the memory back. -/
theorem Memory.ofBytes_bytes (m : Memory) (hm : m.wf) : Memory.ofBytes m.bytes = m := by
  refine Memory.eq_of_read _ _ (Memory.ofBytes_wf _) hm fun a => ?_
  have ha : a.toNat < Config.memSize := a.isLt
  rw [Memory.read_ofBytes]
  simp [Memory.bytes, ha]

end Sys2Proof.Machine
end

