-- ==== Sys2Proof/Laws/Text.lean ====
section
/-! SUPPORT. Texts: a printed number reads back, joined lines split back, an arranged list has the same elements. -/

namespace Sys2Proof.Machine

theorem isDigit_digitChar (d : Nat) (hd : d < 10) : isDigit (Nat.digitChar d) = true := by
  interval_cases d <;> decide

theorem decimal_all_isDigit (n : Nat) : (decimal n).all isDigit = true := by
  induction n using Nat.strong_induction_on with
  | _ n ih =>
    unfold decimal at *
    by_cases h : n < 10
    · simp [Nat.toDigits_of_lt_base h, isDigit_digitChar n h]
    · rw [Nat.toDigits_of_base_le (by omega) (by omega), List.all_append, ih (n / 10) (by omega)]
      simp [isDigit_digitChar (n % 10) (by omega)]

theorem decimal_ne_nil (n : Nat) : decimal n ≠ [] := Nat.toDigits_ne_nil

theorem digitsValue_decimal (n : Nat) : digitsValue 0 (decimal n) = n := by
  have h := Nat.ofDigitChars_ten_toDigits (n := n)
  rw [Nat.ofDigitChars_eq_foldl] at h
  exact h

/-- A printed number is read back (R223, R226). -/
@[simp] theorem parseNumber_decimal (n : Nat) : parseNumber (decimal n) = some n := by
  simp [parseNumber, decimal_ne_nil, decimal_all_isDigit, digitsValue_decimal]

@[simp] theorem parseByte_decimal (b : Byte) : parseByte (decimal b.toNat) = some b := by
  have hb : b.toNat < 256 := b.isLt
  simp [parseByte, hb]

theorem parseBytes_decimal (bs : List Byte) : parseBytes (bs.map fun b => decimal b.toNat) = some bs := by
  induction bs with
  | nil => rfl
  | cons b bs ih => simp [parseBytes, ih]

theorem lf_notMem_decimal (n : Nat) : lf ∉ decimal n := fun h => by
  have := List.all_eq_true.1 (decimal_all_isDigit n) lf h
  exact absurd this (by decide)

/-- A written breakpoint line is read back (R223, R226). -/
@[simp] theorem parseEntry_entryLine (e : Breakpoint) : parseEntry (entryLine e) = some (e.address.toNat, e.name) := by
  have hd := List.all_eq_true.1 (decimal_all_isDigit e.address.toNat)
  have hs : isDigit ' ' = false := by decide
  have h1 : (entryLine e).takeWhile isDigit = decimal e.address.toNat := by
    rw [entryLine, List.takeWhile_append_of_pos hd, List.takeWhile_cons_of_neg (by simp [hs]), List.append_nil]
  have h2 : (entryLine e).dropWhile isDigit = ' ' :: e.name := by
    rw [entryLine, List.dropWhile_append_of_pos hd, List.dropWhile_cons_of_neg (by simp [hs])]
  have h3 : e.address.toNat < Config.memSize := e.address.isLt
  simp [parseEntry, h1, h2, h3]

theorem parseEntries_entryLine (t : List Breakpoint) :
    parseEntries (t.map entryLine) = some (t.map fun e => (e.address.toNat, e.name)) := by
  induction t with
  | nil => rfl
  | cons e t ih => simp [parseEntries, ih]

theorem splitLines_line_append (l x : Text) (hl : lf ∉ l) : splitLines (l ++ lf :: x) = l :: splitLines x := by
  induction l with
  | nil => simp [splitLines]
  | cons c l ih =>
    have hc : c ≠ lf := fun h => hl (by simp [h])
    simp [splitLines, hc, ih fun h => hl (by simp [h])]

/-- Joined lines that hold no LF split back (R223). -/
theorem splitLines_joinLines (ls : List Text) (h : ∀ l ∈ ls, lf ∉ l) : splitLines (joinLines ls) = ls := by
  induction ls with
  | nil => rfl
  | cons l ls ih =>
    have hj : joinLines (l :: ls) = l ++ lf :: joinLines ls := by simp [joinLines]
    rw [hj, splitLines_line_append l _ (h l (by simp)), ih fun m hm => h m (by simp [hm])]

theorem pick_perm {α : Type} (i : Nat) (x : α) (xs : List α) : ((pick i x xs).1 :: (pick i x xs).2).Perm (x :: xs) := by
  induction i generalizing x xs with
  | zero => cases xs <;> exact List.Perm.refl _
  | succ i ih =>
    cases xs with
    | nil => exact List.Perm.refl _
    | cons y ys => exact (List.Perm.swap x _ _).trans ((ih y ys).cons x)

/-- Whatever the choice, an arranged list is the list in some order (K4). -/
theorem arrange_perm {α : Type} (fuel choice : Nat) (xs : List α) : (arrange fuel choice xs).Perm xs := by
  induction fuel generalizing choice xs with
  | zero => exact List.Perm.refl _
  | succ fuel ih =>
    cases xs with
    | nil => exact List.Perm.refl _
    | cons y ys =>
      rw [arrange]
      exact ((ih _ _).cons _).trans (pick_perm _ y ys)

end Sys2Proof.Machine
end

