-- ==== Sys2Proof/Laws/Assembler.lean ====
section
/-! SUPPORT. The parts of an assembler line (spec/30_encoding.md R72). -/

namespace Sys2Proof.Machine

theorem tokensFrom_word (part t x : Text) (hb : ∀ c ∈ t, isBlank c = false) :
    tokensFrom part (t ++ x) = tokensFrom (part ++ t) x := by
  induction t generalizing part with
  | nil => simp
  | cons c cs ih =>
    rw [List.cons_append, tokensFrom, hb c (by simp), if_neg (by simp),
      ih (part ++ [c]) fun d hd => hb d (List.mem_cons_of_mem _ hd)]
    simp

/-- A text without blanks is one part. -/
theorem tokens_word (t : Text) (ht : t ≠ []) (hb : ∀ c ∈ t, isBlank c = false) : tokens t = [t] := by
  have h := tokensFrom_word [] t [] hb
  rw [List.append_nil, List.nil_append] at h
  rw [tokens, h, tokensFrom, if_neg ht]

/-- A part ends at a blank. -/
theorem tokens_word_append (t x : Text) (b : Char) (ht : t ≠ []) (hb : ∀ c ∈ t, isBlank c = false)
    (hbl : isBlank b = true) : tokens (t ++ b :: x) = t :: tokens x := by
  rw [tokens, tokensFrom_word [] t (b :: x) hb, List.nil_append, tokensFrom, hbl, if_pos rfl, if_neg ht]
  rfl

end Sys2Proof.Machine
end

