-- ==== Sys2Proof/Laws/Blocks.lean ====
section
/-! SUPPORT. What writing one block, new or existing, does to all of them. -/

namespace Sys2Proof.Machine

/-- All that `putBlock` can do: the place it answers holds the state, every other place what it held, and only a new
block makes the list longer. -/
theorem putBlock_spec (bs cs : List State) (dst : Option Nat) (s : State) (k : Nat)
    (h : putBlock bs dst s = some (k, cs)) :
    cs[k]? = some s ∧ (∀ j, j ≠ k → cs[j]? = bs[j]?) ∧
    ((dst = none ∧ k = bs.length ∧ cs.length = bs.length + 1) ∨
      (dst = some k ∧ k < bs.length ∧ cs.length = bs.length)) := by
  cases dst with
  | none =>
    obtain ⟨rfl, rfl⟩ : bs.length = k ∧ bs ++ [s] = cs := by simpa [putBlock] using h
    refine ⟨by simp, fun j hj => ?_, .inl ⟨rfl, rfl, by simp⟩⟩
    rw [List.getElem?_append]
    split
    · rfl
    · rw [List.getElem?_eq_none (by simp only [List.length_singleton]; omega), List.getElem?_eq_none (by omega)]
  | some d =>
    by_cases hd : d < bs.length
    · obtain ⟨rfl, rfl⟩ : d = k ∧ bs.set d s = cs := by simpa [putBlock, hd] using h
      exact ⟨by simp [hd], fun j hj => by rw [List.getElem?_set_ne hj.symm], .inr ⟨rfl, hd, by simp⟩⟩
    · simp [putBlock, hd] at h

/-- A new block can always be written, and an existing one. -/
theorem putBlock_new (bs : List State) (s : State) : putBlock bs none s = some (bs.length, bs ++ [s]) := rfl

theorem putBlock_existing (bs : List State) (k : Nat) (s : State) (hk : k < bs.length) :
    putBlock bs (some k) s = some (k, bs.set k s) := by simp [putBlock, hk]

end Sys2Proof.Machine
end

