-- ==== Sys2Proof/Laws/Exec.lean ====
section
/-! SUPPORT. The execute wrapper and the operand forms: what masking gives (spec/30_encoding.md R68). -/

namespace Sys2Proof.Machine

/-- The wrapper always completes, with the wrapped raw results (R68). -/
theorem executeRaw_eq (r : RawResult) (s : State) : executeRaw r s = .next (wrapRaw r s) := rfl

/-- A byte is its own masked value (R5). -/
@[simp] theorem maskToByte_toNat (b : Byte) : maskToByte b.toNat = b := by simp [maskToByte]

/-- The masked exact sum is the 8-bit sum (R80). -/
@[simp] theorem maskToByte_add (a b : Byte) : maskToByte ((a.toNat : Int) + b.toNat) = a + b := by
  rw [maskToByte, BitVec.ofInt_add]
  simp

/-- The advance by 2, masked (R68). -/
@[simp] theorem maskToByte_advance (a : Addr) : maskToByte ((a.toNat : Int) + 2) = a + 2 := by
  have h : ((a.toNat : Int) + 2) = (a.toNat : Int) + (2#8).toNat := rfl
  rw [h, maskToByte_add]
  rfl

/-- A taken jump reaches its target exactly (R68, R120). -/
@[simp] theorem maskToByte_rawJumpTarget (a : Addr) : maskToByte (rawJumpTarget a + 2) = a := by
  simp [maskToByte, rawJumpTarget]

@[simp] theorem effectiveAddress_eq (a : Addr) : effectiveAddress a = a := rfl

@[simp] theorem memoryOperand_eq (a : Addr) (s : State) : memoryOperand a s = s.mem.read a := rfl

@[simp] theorem memRead_eq (s : State) (a : Addr) : memRead s a = s.mem.read a := rfl

@[simp] theorem memWrite_eq (s : State) (a : Addr) (v : Byte) : memWrite s a v = s.mem.write a v := rfl

theorem accNonZero_iff (s : State) : accNonZero s = true ↔ s.acc ≠ 0 := by simp [accNonZero]

end Sys2Proof.Machine
end

