-- ==== Sys2Proof/Laws/PerInstr.lean ====
section
/-! SUPPORT. One fact about every instruction as syntax, per constructor (spec/30_encoding.md R63, R64): it encodes to a
legal word that carries its operand address. -/

namespace Sys2Proof.Laws

/-- The encoding of `i` is a legal word, with the opcode byte of R63's table and the operand address of `i`. -/
def EncodesLegal.Statement (i : Instr) : Prop :=
  (encode i).wellFormed = true ∧ (encode i).opcode = i.opcode.byte ∧ (encode i).operandAddress = i.addr

theorem EncodesLegal.add (a : Addr) : EncodesLegal.Statement (.add a) := ⟨rfl, rfl, rfl⟩
theorem EncodesLegal.and (a : Addr) : EncodesLegal.Statement (.and a) := ⟨rfl, rfl, rfl⟩
theorem EncodesLegal.orr (a : Addr) : EncodesLegal.Statement (.orr a) := ⟨rfl, rfl, rfl⟩
theorem EncodesLegal.xor (a : Addr) : EncodesLegal.Statement (.xor a) := ⟨rfl, rfl, rfl⟩
theorem EncodesLegal.ldr (a : Addr) : EncodesLegal.Statement (.ldr a) := ⟨rfl, rfl, rfl⟩
theorem EncodesLegal.str (a : Addr) : EncodesLegal.Statement (.str a) := ⟨rfl, rfl, rfl⟩
theorem EncodesLegal.jmp (a : Addr) : EncodesLegal.Statement (.jmp a) := ⟨rfl, rfl, rfl⟩
theorem EncodesLegal.jne (a : Addr) : EncodesLegal.Statement (.jne a) := ⟨rfl, rfl, rfl⟩

end Sys2Proof.Laws
end

