-- ==== Sys2Proof/Laws/Step.lean ====
section
/-! SUPPORT. Inversion of a step and the unfolding of a run, said once. -/

namespace Sys2Proof.Machine

/-- A step that completes: `PC` was even, the fetched word decoded to an instruction, the instruction completed, and
the step counted it (R141). -/
theorem step_next (s t : State) (h : step s = .next t) :
    pcMisaligned s = false ∧ ∃ i u, decode (fetchWord s) = .instr i ∧ exec i s = .next u ∧ t = countCycle u := by
  unfold step at h
  split at h
  · cases h
  · next hp =>
    refine ⟨by simpa using hp, ?_⟩
    split at h
    · cases h
    · next i hi =>
      unfold countCompleted at h
      split at h
      · next u hu => cases h; exact ⟨i, u, hi, hu, rfl⟩
      · cases h
      · cases h

/-- The loop's body (R147). -/
theorem run_succ (n : Nat) (s : State) : run (n + 1) s =
    match step s with
    | .fault f => (.failure f, s)
    | .refused r => (.refused r, s)
    | .next t => if isBreakpoint t then (.breakpoint, t) else run n t := rfl

end Sys2Proof.Machine
end

