-- ==== Sys2Proof/Tests/Slice0.lean ====
section
/-! SUPPORT. Tests: the refused words, decoding, one step of each instruction, the engine and the host's commands on small
states; and for every statement with hypotheses a witness that meets them. Expected results are those of
spec/95_test_vectors.md (the vector is named), or written out from the rule named. -/

namespace Sys2Proof.Machine.Tests

/-! ### Helpers -/

/-- A small state: a program counter, an accumulator, and bytes stored from given addresses on. -/
def small (pc acc : Byte) (cells : List (Nat × Byte)) : State := ⟨acc, pc, placeBytes [] cells, 0, []⟩

/-- The same with breakpoints. -/
def smallBp (pc acc : Byte) (cells : List (Nat × Byte)) (t : List Breakpoint) : State :=
  { small pc acc cells with bpt := t }

/-- The table of TB1 and TB5: (2, "a") and (4, "A"). -/
def twoEntries : List Breakpoint := [⟨2, ['a']⟩, ⟨4, ['A']⟩]

/-- The full table of section 2.6: 128 entries at the addresses 0 to 127. -/
def fullTable : List Breakpoint := (List.range 128).map fun k => ⟨BitVec.ofNat 8 k, 'n' :: decimal k⟩

/-- A state file of zeros with the given lines after the 259th. -/
def zeroFile (more : List Text) : Text := joinLines (List.replicate 259 ['0'] ++ more)

/-! ### Legal words and decoding (R63, R64; TE1 to TE7) -/

theorem test_wellFormed_refuses_08 : (InstructionWord.mk 0x08 0x00).wellFormed = false := by decide
theorem test_wellFormed_refuses_FF : (InstructionWord.mk 0xFF 0xFF).wellFormed = false := by decide
theorem test_wellFormed_allows_07 : (InstructionWord.mk 0x07 0xFF).wellFormed = true := by decide

theorem test_decode_add : decode ⟨0b00000000, 0b00000000⟩ = .instr (.add 0) := by decide
theorem test_decode_and : decode ⟨0b00000001, 0b10000001⟩ = .instr (.and 0x81) := by decide
theorem test_decode_orr : decode ⟨0b00000010, 0b01000010⟩ = .instr (.orr 0x42) := by decide
theorem test_decode_xor : decode ⟨0b00000011, 0b00000100⟩ = .instr (.xor 4) := by decide
theorem test_decode_ldr : decode ⟨0b00000100, 0b11111111⟩ = .instr (.ldr 255) := by decide
theorem test_decode_str : decode ⟨0b00000101, 0b01000000⟩ = .instr (.str 0x40) := by decide
theorem test_decode_jmp : decode ⟨0b00000110, 0b00000001⟩ = .instr (.jmp 1) := by decide
theorem test_decode_jne : decode ⟨0b00000111, 0b11111111⟩ = .instr (.jne 255) := by decide
theorem test_decode_invalid : decode ⟨0b10000000, 0b00010000⟩ = .invalid 0x80 := by decide
theorem test_decodeTableWord : decodeTableWord 16 0x0540 = some (.str 0x40) ∧ decodeTableWord 16 0x0800 = none := by
  decide
theorem test_encode_jmp : encode (.jmp 0x40) = ⟨0x06, 0x40⟩ := by decide
theorem test_make_masks : make .jmp 257 = .jmp 1 ∧ make .ldr 2048 = .ldr 0 := by decide
theorem test_withFetchWord : fetchWord ((small 0x11 0 []).withFetchWord 16 0x0540) = ⟨0x05, 0x40⟩ := by decide

/-! ### One step of each instruction -/

/-- TA1. -/
theorem test_add_wraps : step (small 0x10 0x05 [(0x10, 0x00), (0x11, 0x80), (0x80, 0xFF)]) =
    .next { small 0x12 0x04 [(0x10, 0x00), (0x11, 0x80), (0x80, 0xFF)] with cycles := 1 } := rfl
/-- TA20: the advance from 254 gives 0. -/
theorem test_add_pc_wraps : step (small 254 1 [(255, 0x10), (0x10, 1)]) =
    .next { small 0 2 [(255, 0x10), (0x10, 1)] with cycles := 1 } := rfl
/-- TA8. -/
theorem test_and : exec (.and 0x80) (small 0x10 0xF0 [(0x80, 0x3C)]) =
    .next (small 0x12 0x30 [(0x80, 0x3C)]) := rfl
/-- TA13. -/
theorem test_orr : exec (.orr 0x80) (small 0x10 0xA0 [(0x80, 0x05)]) =
    .next (small 0x12 0xA5 [(0x80, 0x05)]) := rfl
/-- TA21: XOR of its own opcode byte. -/
theorem test_xor_reads_itself : step (small 4 0x07 [(4, 0x03), (5, 0x04)]) =
    .next { small 6 0x04 [(4, 0x03), (5, 0x04)] with cycles := 1 } := rfl
/-- TL1, TL3. -/
theorem test_ldr : step (small 0 0x11 [(0, 0x04), (1, 0x80), (0x80, 0x7F)]) =
    .next { small 2 0x7F [(0, 0x04), (1, 0x80), (0x80, 0x7F)] with cycles := 1 } := rfl
theorem test_ldr_own_address_byte : step (small 10 0 [(10, 0x04), (11, 0x0B)]) =
    .next { small 12 0x0B [(10, 0x04), (11, 0x0B)] with cycles := 1 } := rfl
/-- TL6: a store into its own address byte goes where it was decoded to go. -/
theorem test_str_own_address_byte : step (small 0 0x09 [(0, 0x05), (1, 0x01)]) =
    .next { small 2 0x09 [(0, 0x05), (1, 0x09)] with cycles := 1 } := rfl
/-- R101 with `ACC = 0`: the cell then reads 0 and memory is again in canonical form. -/
theorem test_str_zero : exec (.str 0x40) (small 0 0 [(0x40, 0x2A), (0x41, 0x01)]) =
    .next (small 2 0 [(0x41, 0x01)]) := rfl
/-- TJ2, TJ5. -/
theorem test_jmp_raw_negative : (rawEffect (.jmp 0) (small 2 0 [])).pc = -2 ∧
    exec (.jmp 0) (small 2 0 []) = .next (small 0 0 []) := ⟨rfl, rfl⟩
theorem test_jmp_odd : exec (.jmp 255) (small 0 0 []) = .next (small 255 0 []) := rfl
/-- TJ9, TJ8. -/
theorem test_jne_taken : exec (.jne 0) (small 254 0xFF []) = .next (small 0 0xFF []) := rfl
theorem test_jne_not_taken : exec (.jne 64) (small 254 0 []) = .next (small 0 0 []) := rfl

/-! ### The engine (TX1 to TX12) and the registry (TB1 to TB14) -/

theorem test_reset_step : step State.reset = .next ⟨0, 2, [], 1, []⟩ := rfl
theorem test_step_misaligned_first : step (small 1 0 [(1, 0xFF)]) = .fault (.alignmentError 1) := rfl
theorem test_step_pc_255 : step (small 255 0 []) = .fault (.alignmentError 255) := rfl
theorem test_step_illegal : step (small 0 0 [(0, 0x08)]) = .fault (.decodeError 0 0x08) := rfl
/-- TX8: the breakpoint test comes before the budget test. -/
theorem test_run_breakpoint_before_budget : (run 1 (smallBp 2 0 [] [⟨4, []⟩])).1 = .breakpoint := by decide
/-- TX7: no check before the first step. -/
theorem test_run_no_entry_check : (run 1 (smallBp 2 0 [] [⟨2, []⟩])).1 = .budgetExhausted := by decide

/-- TB2, TB3, TB4: an address, a name, a masked address that is taken. -/
theorem test_insert_conflicts :
    (command 0 (.insert 2 ['b']) (smallBp 0 0 [] twoEntries)).1 = .failed .breakpointConflict ∧
    (command 0 (.insert 3 ['a']) (smallBp 0 0 [] twoEntries)).1 = .failed .breakpointConflict ∧
    (command 0 (.insert 258 ['c']) (smallBp 0 0 [] twoEntries)).1 = .failed .breakpointConflict := by decide
/-- TB6, TB7, TB13. -/
theorem test_insert_find_delete :
    (command 0 (.insert 7 []) (smallBp 0 0 [] twoEntries)).2.bpt = twoEntries ++ [⟨7, []⟩] ∧
    (command 0 (.findByAddress 260) (smallBp 0 0 [] twoEntries)).1 = .entry (some ⟨4, ['A']⟩) ∧
    (command 0 (.deleteByAddress 263) (smallBp 0 0 [] (twoEntries ++ [⟨7, []⟩]))).2.bpt = twoEntries := by decide
/-- The capacity rows of section 2.6. -/
theorem test_insert_full :
    (command 0 (.insert 128 ['n', '1', '2', '8']) (smallBp 0 0 [] fullTable)).1 = .failed .breakpointFull ∧
    (command 0 (.insert 5 ['n', 'e', 'w']) (smallBp 0 0 [] fullTable)).1 = .failed .breakpointConflict := by
  decide +kernel

/-! ### State files, listing and assembler -/

/-- TF5, TF7: a file of zeros with one breakpoint line whose name holds a space. -/
theorem test_load : loadState (some (zeroFile ["10 my stop".toList])) =
    .ok ⟨0, 0, [], 0, [⟨10, "my stop".toList⟩]⟩ := by decide +kernel
/-- TF2, TF4, TF6. -/
theorem test_load_refuses :
    loadState (some (joinLines (List.replicate 258 ['0']))) = .error .persistenceError ∧
    loadState (some (zeroFile ["6 end".toList, "6 again".toList])) = .error .persistenceError ∧
    loadState (some (zeroFile ["300 x".toList])) = .error .persistenceError := by decide +kernel
/-- TF8, lines 1, 5 and 9 of the listing. -/
theorem test_listing :
    listingLine 0 ⟨4, 16⟩ = "0\t4\t16\t:\tLDR: ACC <- [addr]".toList ∧
    listingLine 8 ⟨0, 0⟩ = "8\t0\t0".toList ∧ listingLine 16 ⟨200, 100⟩ = "16\t200\t100".toList := by decide
/-- A part of P1 and P2: a label, a comment, a hexadecimal and a decimal number, a directive. -/
theorem test_assemble :
    assemble "      LDR 0x10 ; 04 10\nend:  JMP end\n.org 0x10\n .byte 200\n".toList =
      some [(0, 0x04), (1, 0x10), (2, 0x06), (3, 0x02), (16, 200)] ∧
    assemble ".org 1\nADD 0".toList = none := by decide

/-! ### Witnesses: for each statement with hypotheses, a state and operands that meet them -/

theorem witness_DecodeEncodeAgree : decode ⟨0x05, 0x40⟩ = .instr (.str 0x40) ∧
    8 ≤ (InstructionWord.mk 0x08 0).opcode.toNat ∧ 8 ≤ (InstructionWord.mk 0xFF 0).opcode.toNat := by decide
theorem witness_OpcodeMapRowsDecide : ⟨.jne, 0x0700, 0xFF00⟩ ∈ encodingTable ∧
    (EncodingRow.mk .jne 0x0700 0xFF00).fits 0x07FF = true := by decide
theorem witness_IllegalOpcodesInvalid : (small 254 0 [(254, 0x08)]).pc.toNat % 2 = 0 ∧
    8 ≤ ((small 254 0 [(254, 0x08)]).mem.read 254).toNat := by decide
theorem witness_LdrLoadsCell :
    (fetchWord (small 10 0 [(10, 0x04), (11, 0x0A)]) = ⟨0x04, 10⟩ ∧ (10 : Addr) = (small 10 0 []).pc) ∧
    (fetchWord (small 10 0 [(10, 0x04), (11, 0x0B)]) = ⟨0x04, 11⟩ ∧ (11 : Addr) = (small 10 0 []).pc + 1) := by decide
/-- Two completed steps that store to cell 4 and leave cell 5 as it was. -/
theorem witness_LdrLoadsCell_notStored :
    stepsFrom 2 (small 0 7 [(1, 4), (0, 5), (5, 9)]) = some { small 4 7 [(0, 5), (1, 4), (4, 7), (5, 9)] with
      acc := 7 + 5, cycles := 2 } ∧
    (∀ k u i, k < 2 → stepsFrom k (small 0 7 [(1, 4), (0, 5), (5, 9)]) = some u → decode (fetchWord u) = .instr i →
      storedAddress i ≠ some 5) := by
  refine ⟨rfl, fun k u i hk hu hi => ?_⟩
  obtain rfl | rfl : k = 0 ∨ k = 1 := by omega
  all_goals cases hu; cases hi; decide
theorem witness_StrStoresAccumulator : (0x41 : Addr) ≠ effectiveAddress 0x40 := by decide
theorem witness_JmpReachesTarget : (0 : Addr) = (small 254 0 []).pc + 2 := by decide
theorem witness_RawEffectTable : (Instr.str 0).opcode ≠ .add ∧ jumpTaken (.jmp 255) State.reset = true ∧
    jumpTaken (.jne 1) State.reset = false := by decide
theorem witness_ExecuteFrame : exec (.str 0x40) (small 0 7 []) = .next (small 2 7 [(0x40, 7)]) ∧
    writesAcc (.str 0x40) = false ∧ storedAddress (.str 0x40) = some 0x40 ∧ storedAddress (.jmp 0x40) = none ∧
    exec (.jmp 0x40) (small 0 7 []) = .next (small 0x40 7 []) := ⟨rfl, rfl, rfl, rfl, rfl⟩
theorem witness_StepRunsDecodedInstruction :
    (small 255 0 []).pc.toNat % 2 = 1 ∧ (small 254 0 [(254, 8)]).pc.toNat % 2 = 0 ∧
    decode ⟨(small 254 0 [(254, 8)]).mem.read 254, (small 254 0 [(254, 8)]).mem.read 255⟩ = .invalid 8 ∧
    decode ⟨(small 254 0 [(254, 7)]).mem.read 254, (small 254 0 [(254, 7)]).mem.read 255⟩ = .instr (.jne 0) := by decide
theorem witness_StepFaultsExactly :
    step (small 254 0 [(254, 7)]) = .next { small 0 0 [(254, 7)] with cycles := 1 } ∧
    step (small 254 0 [(254, 8)]) = .fault (.decodeError 254 8) ∧ step (small 255 0 []) = .fault (.alignmentError 255) :=
  ⟨rfl, rfl, rfl⟩
theorem witness_StepKeepsInvariant : (smallBp 0 9 [(0, 5), (1, 1)] twoEntries).wf ∧
    step (smallBp 0 9 [(0, 5), (1, 1)] twoEntries) =
      .next { smallBp 2 9 [(0, 5), (1, 9)] twoEntries with cycles := 1 } := ⟨by decide, rfl⟩
theorem witness_StoreSeenByNextFetch : (small 254 7 [(254, 5), (255, 0)]).pc.toNat % 2 = 0 ∧
    fetchWord (small 254 7 [(254, 5), (255, 0)]) = ⟨0x05, 0⟩ := by decide
theorem witness_OddJumpFaultsNext : (small 0 1 [(0, 7), (1, 255)]).pc.toNat % 2 = 0 ∧
    decode (fetchWord (small 0 1 [(0, 7), (1, 255)])) = .instr (.jne 255) ∧
    jumpTaken (.jne 255) (small 0 1 [(0, 7), (1, 255)]) = true ∧ (Instr.jne 255).addr.toNat % 2 = 1 ∧
    isBreakpoint (smallBp 255 1 [] [⟨255, []⟩]) = true ∧ isBreakpoint (small 255 1 []) = false := by decide
theorem witness_OddPcOnlyByJump :
    step (small 0 0 [(0, 6), (1, 1)]) = .next { small 1 0 [(0, 6), (1, 1)] with cycles := 1 } ∧
    step (small 254 0 []) = .next { small 0 0 [] with cycles := 1 } ∧ jumpTaken (.add 0) (small 254 0 []) = false :=
  ⟨rfl, rfl, rfl⟩
theorem witness_StepIgnoresBookkeeping : step (small 0 0 []) = .next { small 2 0 [] with cycles := 1 } ∧
    step (small 1 0 []) = .fault (.alignmentError 1) := ⟨rfl, rfl⟩
theorem witness_PlacedInstructionRuns : (small 254 0 []).pc.toNat % 2 = 0 ∧ (3 : Addr) ≠ (small 254 0 []).pc ∧
    (3 : Addr) ≠ (small 254 0 []).pc + 1 := by decide
theorem witness_RunCountsCompletedSteps : (run 2 (small 0 0 [])).1 = .budgetExhausted ∧
    (run 2 (smallBp 0 0 [] [⟨2, []⟩])).1 = .breakpoint ∧
    (run 1 (small 1 0 [])).1 = .failure (.alignmentError 1) := by decide
theorem witness_FailedRunStaysFailed : run 5 (small 0 0 [(2, 9)]) =
    (.failure (.decodeError 2 9), { small 2 0 [(2, 9)] with cycles := 1 }) := by decide
theorem witness_LargerBudgetContinues : run 1 (small 0 0 []) = (.budgetExhausted, { small 2 0 [] with cycles := 1 }) ∧
    run 1 (small 1 0 []) = (.failure (.alignmentError 1), small 1 0 []) := by decide
theorem witness_SingleStepRun : step (small 0 0 []) = .next { small 2 0 [] with cycles := 1 } ∧
    step (small 1 0 []) = .fault (.alignmentError 1) := ⟨rfl, rfl⟩
theorem witness_SelfJumpStopsAtBreakpoint : (smallBp 6 0 [(6, 6), (7, 6)] [⟨6, []⟩]).pc.toNat % 2 = 0 ∧
    fetchWord (smallBp 6 0 [(6, 6), (7, 6)] [⟨6, []⟩]) = ⟨0x06, 6⟩ ∧
    isBreakpoint (smallBp 6 0 [(6, 6), (7, 6)] [⟨6, []⟩]) = true ∧ isBreakpoint (small 6 0 [(6, 6), (7, 6)]) = false := by
  decide
/-- Not the reset state: another `PC`, another `ACC`, another count. -/
theorem witness_RunFromCreation :
    ({ small 254 9 [] with cycles := 3 } : State).pc.toNat % 2 = 0 ∧
    (∀ a : Addr, ({ small 254 9 [] with cycles := 3 } : State).mem.read a = 0) ∧
    ({ small 254 9 [] with cycles := 3 } : State).bpt = [] := ⟨by decide, fun _ => rfl, rfl⟩
theorem witness_QueryTellsOutcomesApart : (run 1 (smallBp 0 0 [] [⟨2, []⟩])).1 = .breakpoint ∧
    (run 1 (small 0 0 [])).1 = .budgetExhausted := by decide
/-- The same address under another name and another count. -/
theorem witness_RunSeesBreakpointAddressesOnly :
    ∀ a : Addr, (∃ e ∈ (smallBp 0 0 [] [⟨2, ['a']⟩]).bpt, e.address = a) ↔
      ∃ e ∈ ({ smallBp 0 0 [] [⟨2, ['b']⟩] with cycles := 9 } : State).bpt, e.address = a := by
  intro a; simp [smallBp]
theorem witness_MeetingObligationsAvoidsFailure : meetsObligations 1 (small 0 0 []) := by
  intro k t hk ht
  obtain rfl : k = 0 := by omega
  cases ht; rfl
theorem witness_InsertOutcome :
    (∃ d ∈ twoEntries, d.address.toNat = 258 % 256 ∨ d.name = ['c']) ∧
    ((∀ d ∈ fullTable, d.address.toNat ≠ 128 % 256 ∧ d.name ≠ ['x']) ∧ Config.bpCapacity ≤ fullTable.length) ∧
    ((∀ d ∈ fullTable.dropLast, d.address.toNat ≠ 127 % 256 ∧ d.name ≠ ['x']) ∧
      fullTable.dropLast.length < Config.bpCapacity) := by decide +kernel
theorem witness_FindsAreExact : (smallBp 0 0 [] twoEntries).wf := by decide
theorem witness_DeleteOutcome : (smallBp 0 0 [] twoEntries).wf ∧ (∃ e ∈ twoEntries, e.address.toNat = 260 % 256) ∧
    (∀ e ∈ twoEntries, e.address.toNat ≠ 3 % 256) ∧ (∃ e ∈ twoEntries, e.name = ['A']) ∧
    ∀ e ∈ twoEntries, e.name ≠ ['z'] := by decide
theorem witness_DeletionKeepsOthersFindable : (smallBp 0 0 [] twoEntries).wf ∧ ⟨2, ['a']⟩ ∈ twoEntries ∧
    deleteByAddress 2 (smallBp 0 0 [] twoEntries) = .ok (smallBp 0 0 [] [⟨4, ['A']⟩]) ∧
    deleteByName ['a'] (smallBp 0 0 [] twoEntries) = .ok (smallBp 0 0 [] [⟨4, ['A']⟩]) :=
  ⟨by decide, by decide, rfl, rfl⟩
theorem witness_InsertOrderUnobservable : bptWf twoEntries ∧
    [(6, ['x']), (1, ['y'])].Perm [(1, ['y']), (6, ['x'])] ∧
    insertAll twoEntries [(6, ['x']), (1, ['y'])] = .ok [⟨1, ['y']⟩, ⟨2, ['a']⟩, ⟨4, ['A']⟩, ⟨6, ['x']⟩] :=
  ⟨by decide, by decide, rfl⟩
theorem witness_CommandsKeepInvariant : (smallBp 0 9 [(0, 5), (1, 1)] twoEntries).wf := by decide
theorem witness_FailedCommandsChangeNothing :
    (command 0 (.deleteByAddress 3) (smallBp 0 0 [] twoEntries)).1 = .failed .notFound := by decide
theorem witness_CommandsWriteOnlyTheirState : writesProcessor (.insert 0 []) = false ∧
    writesBreakpoints (.run 1) = false := by decide
theorem witness_DirectExecuteIgnoresStepChecks : jumpTaken (.add 0) (small 255 0 []) = false := by decide
theorem witness_SaveThenLoadRestoresState : (smallBp 1 9 [(0, 5), (255, 1)] twoEntries).wf ∧
    (∀ e ∈ twoEntries, lf ∉ e.name) ∧ twoEntries.reverse.Perm twoEntries := by decide
/-- Every clause of a file that must load, at its bounds: 259 lines and two more, leading zeros, no LF at the end, line 259 at
255, breakpoints at 0 and 255, one of them without a name. -/
theorem witness_LoadCommitsFile_passes :
    let ls := ["007".toList, "010".toList, "255".toList] ++ List.replicate 255 ['0'] ++ ["255".toList] ++
      ["000 ".toList, "255 a b".toList]
    splitLines ((joinLines ls).dropLast) = ls ∧ ls.length = 261 ∧
    loadState (some (joinLines ls).dropLast) = .ok ⟨10, 255, [(255, 255)], 7, [⟨0, []⟩, ⟨255, "a b".toList⟩]⟩ := by
  decide +kernel
theorem witness_LoadCommitsFile : loadState (some (zeroFile [])) = .ok ⟨0, 0, [], 0, []⟩ := by decide +kernel
/-- One file for each clause: too few lines, no number, over 255, no breakpoint line, an address of 256, two that share an
address, two that share a name, too many. -/
theorem witness_LoadRefusesBadFiles :
    (splitLines (joinLines (List.replicate 258 ['0']))).length < 259 ∧
    ((splitLines (joinLines (List.replicate 258 ['0'] ++ [['x']])))[258]? = some ['x'] ∧ parseNumber ['x'] = none) ∧
    ((splitLines (joinLines ([['0'], "256".toList] ++ List.replicate 257 ['0'])))[1]? = some "256".toList ∧
      parseNumber "256".toList = some 256) ∧
    ("7".toList ∈ (splitLines (zeroFile ["7".toList])).drop 259 ∧ parseEntry "7".toList = none) ∧
    ("256 a".toList ∈ (splitLines (zeroFile ["256 a".toList])).drop 259 ∧ "256 a".toList = "256".toList ++ ' ' :: ['a'] ∧
      parseNumber "256".toList = some 256) ∧
    (((splitLines (zeroFile ["6 a".toList, "6 b".toList])).drop 259)[1]? = some "6 b".toList ∧
      parseEntry "6 a".toList = some (6, ['a']) ∧ parseEntry "6 b".toList = some (6, ['b'])) ∧
    (((splitLines (zeroFile ["6 a".toList, "7 a".toList])).drop 259)[1]? = some "7 a".toList ∧
      parseEntry "7 a".toList = some (7, ['a'])) ∧
    Config.bpCapacity < ((splitLines (zeroFile (List.replicate 129 "6 a".toList))).drop 259).length := by
  decide +kernel
/-- The forms of R223 at their bounds: the last address, an empty name, spaces in a name; a sign and a space are no digits. -/
theorem witness_LoadRefusesBadFiles_forms :
    parseNumber "0255".toList = some 255 ∧ parseNumber "+1".toList = none ∧ parseNumber [] = none ∧
    parseNumber "/0".toList = none ∧ parseNumber "0:".toList = none ∧
    parseEntry "255 ".toList = some (255, []) ∧ parseEntry "0  a b".toList = some (0, " a b".toList) ∧
    parseEntry "256 a".toList = none ∧ parseEntry " 1 a".toList = none := by decide
theorem witness_SaveWritesStateFile : (∃ e ∈ [Breakpoint.mk 2 [lf]], lf ∈ e.name) ∧ ∀ e ∈ twoEntries, lf ∉ e.name := by
  decide
theorem witness_ListingHasEverySlot : 127 < 128 := by decide
/-- A copy to a new block, over another block and over itself. -/
theorem witness_CopyIsIndependent : (Blocks.mk [small 2 1 [], small 4 3 []] 0).blocks[0]? = some (small 2 1 []) ∧
    blocksCommand (.copy 0 (some 1)) ⟨[small 2 1 [], small 4 3 []], 0⟩ =
      some (.block 1, ⟨[small 2 1 [], small 2 1 []], 0⟩) ∧
    blocksCommand (.copy 0 (some 0)) ⟨[small 2 1 []], 0⟩ = some (.block 0, ⟨[small 2 1 []], 0⟩) ∧
    blocksCommand (.onBlock 1 .readAcc) ⟨[small 2 1 [], small 4 3 []], 0⟩ =
      some (.response (.byte 3), ⟨[small 2 1 [], small 4 3 []], 1⟩) := ⟨rfl, rfl, rfl, rfl⟩
theorem witness_MoveGivesSourceState : (Blocks.mk [small 2 1 [], small 4 3 []] 0).blocks[0]? = some (small 2 1 []) ∧
    (1 < (Blocks.mk [small 2 1 [], small 4 3 []] 0).blocks.length ∧ 1 ≠ 0) := by decide
theorem witness_BlocksKeepInvariant : (∀ s ∈ (Blocks.mk [State.reset] 0).blocks, s.wf) ∧
    blocksCommand .create ⟨[State.reset], 0⟩ = some (.block 1, ⟨[State.reset, State.reset], 0⟩) := ⟨by decide, rfl⟩
theorem witness_LinesAndNumbersOfTexts : lf ∉ "0 a".toList ∧ "0 a".toList ≠ [] ∧ decimal 10 = ['1', '0'] := by decide
theorem witness_InstructionLineAssembles : asmNumber "255".toList = some 255 ∧ asmNumber "0xfF".toList = some 255 ∧
    asmNumber "256".toList = none ∧ asmNumber "0x100".toList = none ∧ asmNumber "0x".toList = none ∧
    assemble ".org 0xFE\nLDR 255".toList = some [(254, 0x04), (255, 0xFF)] := by decide
/-- The greatest addresses each clause allows, labels and comments of P1 and P2. -/
theorem witness_SourceFormsAssemble : isLabelText "loop".toList = true ∧ isLabelText "2nd".toList = false ∧
    assemble ".org 255\n.byte 7".toList = some [(255, 7)] ∧
    assemble ".org 252\nADD 1\nloop: JNE loop".toList = some [(252, 0), (253, 1), (254, 7), (255, 254)] ∧
    assemble ".org 254\nJMP end\n.org 0\nend: .byte 9".toList = some [(254, 6), (255, 0), (0, 9)] ∧
    assemble ".org 254\n.byte 9 ; C8\nd:\n.byte d".toList = some [(254, 9), (255, 255)] := by decide
/-- Log entry 9: a CR does not end a line. -/
theorem test_assemble_cr : assemble "ADD 0\r\n".toList = none ∧ assemble "ADD 0 ; x\r\n".toList = some [(0, 0), (1, 0)] := by
  decide

end Sys2Proof.Machine.Tests
end

section
/-! PROOFS. The state (spec/10_state.md): what an instruction changes and leaves unchanged, what a step depends on, and
the invariants of R26 and R30 along steps, runs, commands and commands to the blocks. -/

namespace Sys2Proof.Machine

/-! ### One instruction: the raw effect and its wrapper (R68, R69) -/

/-- Every instruction completes, with its row of R69's table under the wrapper. -/
theorem exec_eq (i : Instr) (s : State) : exec i s = .next (wrapRaw (rawEffect i s) s) := by
  cases i <;> rfl

theorem exec_next_iff (i : Instr) (s t : State) : exec i s = .next t ↔ t = wrapRaw (rawEffect i s) s := by
  rw [exec_eq, Host.Outcome.next.injEq, eq_comm]

/-- The PC column of R69's table. -/
theorem rawEffect_pc (i : Instr) (s : State) :
    (rawEffect i s).pc = if jumpTaken i s then rawJumpTarget i.addr else (s.pc.toNat : Int) := by
  cases i <;> rfl

/-- The memory column of R69's table: STR's one write of the accumulator. -/
theorem rawEffect_mem (i : Instr) (s : State) :
    (rawEffect i s).mem = (storedAddress i).elim s.mem fun a => s.mem.write a s.acc := by
  cases i <;> rfl

/-- The accumulator column of R69's table, for the instructions that do not write it. -/
theorem rawEffect_acc_of_not_writesAcc (i : Instr) (s : State) (h : writesAcc i = false) :
    (rawEffect i s).acc = s.acc.toNat := by
  cases i with
  | add a | and a | orr a | xor a | ldr a => cases h
  | str a | jmp a | jne a => rfl

/-- No raw effect reads the counter or the breakpoint table. -/
theorem rawEffect_bookkeeping (i : Instr) (s : State) (c : Nat) (b : List Breakpoint) :
    rawEffect i { s with cycles := c, bpt := b } = rawEffect i s := by
  cases i <;> rfl

/-- R68's net effect on PC: the target of a taken jump, else the advance by 2. -/
theorem wrapRaw_rawEffect_pc (i : Instr) (s : State) :
    (wrapRaw (rawEffect i s) s).pc = if jumpTaken i s then i.addr else s.pc + 2 := by
  rw [wrapRaw_pc, rawEffect_pc]
  split <;> simp

/-! ### One step: its three cases (R141) -/

theorem step_of_misaligned (s : State) (hp : pcMisaligned s = true) :
    step s = .fault (.alignmentError s.pc) := by
  simp [step, hp, takeAlignmentError, takeFault]

theorem step_of_invalid (s : State) (op : Byte) (hp : pcMisaligned s = false)
    (hd : decode (fetchWord s) = .invalid op) : step s = .fault (.decodeError s.pc op) := by
  simp [step, hp, hd, takeDecodeError, takeFault]

theorem step_of_instr (s : State) (i : Instr) (hp : pcMisaligned s = false)
    (hd : decode (fetchWord s) = .instr i) : step s = .next (countCycle (wrapRaw (rawEffect i s) s)) := by
  simp [step, hp, hd, exec_eq, countCompleted]

/-- A completed step is the fetched instruction's raw effect, wrapped and counted, from an even PC. -/
theorem step_next_rawEffect (s t : State) (h : step s = .next t) :
    pcMisaligned s = false ∧
      ∃ i, decode (fetchWord s) = .instr i ∧ t = countCycle (wrapRaw (rawEffect i s) s) := by
  obtain ⟨hp, i, u, hd, hu, rfl⟩ := step_next s t h
  exact ⟨hp, i, hd, by rw [(exec_next_iff i s u).1 hu]⟩

theorem pcMisaligned_eq_false_iff (s : State) : pcMisaligned s = false ↔ s.pc.toNat % 2 = 0 := by
  simp [pcMisaligned]

/-! ### The invariants along executions -/

/-- R30 bounds ACC and PC by their type alone, so only the raw result's memory has to be canonical. -/
theorem wrapRaw_wf (r : RawResult) (s : State) (hs : s.wf) (hr : r.mem.wf) : (wrapRaw r s).wf := ⟨hr, hs.2⟩

theorem rawEffect_mem_wf (i : Instr) (s : State) (hm : s.mem.wf) : (rawEffect i s).mem.wf := by
  rw [rawEffect_mem]
  cases storedAddress i with
  | none => exact hm
  | some a => exact Memory.write_wf s.mem a s.acc hm

theorem exec_wf (i : Instr) (s t : State) (hs : s.wf) (h : exec i s = .next t) : t.wf := by
  rw [(exec_next_iff i s t).1 h]
  exact wrapRaw_wf _ s hs (rawEffect_mem_wf i s hs.1)

theorem countCycle_wf (s : State) (hs : s.wf) : (countCycle s).wf := hs

theorem step_wf (s t : State) (hs : s.wf) (h : step s = .next t) : t.wf := by
  obtain ⟨-, i, u, -, hu, rfl⟩ := step_next s t h
  exact countCycle_wf u (exec_wf i s u hs hu)

theorem run_wf (n : Nat) (s : State) (hs : s.wf) : (run n s).2.wf := by
  induction n generalizing s with
  | zero => exact hs
  | succ n ih =>
    rw [run_succ]
    cases h : step s with
    | fault f => exact hs
    | refused r => exact hs
    | next t =>
      have ht : t.wf := step_wf s t hs h
      cases hb : isBreakpoint t with
      | true => simpa [hb] using ht
      | false => simpa [hb] using ih t ht

theorem reset_wf : State.reset.wf := ⟨Memory.nil_wf, bptWf_nil⟩

/-! ### The invariants along the host's commands -/

/-- A command that commits keeps the invariants when the state it would commit meets them; a failure commits none. -/
theorem commit_wf (r : Except CommandFailure State) (s : State) (hs : s.wf) (hr : ∀ t, r = .ok t → t.wf) :
    (commit r s).2.wf := by
  cases r with
  | ok t => exact hr t rfl
  | error f => exact hs

theorem insertBreakpoint_wf (n : Nat) (name : Text) (s t : State) (hs : s.wf)
    (h : insertBreakpoint n name s = .ok t) : t.wf := by
  unfold insertBreakpoint at h
  split at h
  · next u hu =>
    cases h
    exact ⟨hs.1, insertEntry_wf s.bpt u _ hs.2 hu⟩
  · cases h

theorem deleteByAddress_wf (n : Nat) (s t : State) (hs : s.wf) (h : deleteByAddress n s = .ok t) : t.wf := by
  unfold deleteByAddress at h
  split at h
  · cases h
    exact ⟨hs.1, bptWf_filter s.bpt _ hs.2⟩
  · cases h

theorem deleteByName_wf (name : Text) (s t : State) (hs : s.wf) (h : deleteByName name s = .ok t) : t.wf := by
  unfold deleteByName at h
  split at h
  · exact deleteByAddress_wf _ s t hs h
  · cases h

/-- Where the memory and the table of a loaded state come from (R225). -/
theorem parseStateLines_mem_bpt (ls : List Text) (t : State) (h : parseStateLines ls = some t) :
    ∃ bytes entries, t.mem = Memory.ofBytes bytes ∧ insertAll [] entries = .ok t.bpt := by
  unfold parseStateLines at h
  split at h
  · split at h
    · split at h
      · split at h
        · next u hu =>
          cases h
          exact ⟨_, _, rfl, hu⟩
        · cases h
      · cases h
    · cases h
  · cases h

theorem parseStateLines_wf (ls : List Text) (t : State) (h : parseStateLines ls = some t) : t.wf := by
  obtain ⟨bytes, entries, hmem, hbpt⟩ := parseStateLines_mem_bpt ls t h
  exact ⟨hmem ▸ Memory.ofBytes_wf bytes, insertAll_wf entries [] t.bpt bptWf_nil hbpt⟩

/-- A file that loads gives a legal state, whatever the state before the load was. -/
theorem loadState_wf (file : Option Text) (t : State) (h : loadState file = .ok t) : t.wf := by
  unfold loadState at h
  split at h
  · cases h
  · split at h
    · next u hu =>
      cases h
      exact parseStateLines_wf _ _ hu
    · cases h

theorem executeDirect_state (i : Instr) (s : State) : (executeDirect i s).2 = wrapRaw (rawEffect i s) s := by
  simp [executeDirect, exec_eq]

theorem saveCommand_state (draw : Nat) (writable : Bool) (s : State) : (saveCommand draw writable s).2 = s := by
  unfold saveCommand
  split <;> rfl

theorem command_wf (draw : Nat) (c : Command) (s : State) (hs : s.wf) : (command draw c s).2.wf := by
  cases c with
  | run n => exact run_wf n s hs
  | insert n name => exact commit_wf _ s hs fun t => insertBreakpoint_wf n name s t hs
  | deleteByAddress n => exact commit_wf _ s hs fun t => deleteByAddress_wf n s t hs
  | deleteByName name => exact commit_wf _ s hs fun t => deleteByName_wf name s t hs
  | loadState file => exact commit_wf _ s hs fun t => loadState_wf file t
  | execute i => exact exec_wf i s _ hs ((exec_next_iff i s _).2 (executeDirect_state i s))
  | saveState writable =>
    show (saveCommand draw writable s).2.wf
    rwa [saveCommand_state]
  | isBreakpoint | findByAddress _ | findByName _ | count | readAcc | readPc | readCycles | readMem _
  | printProgram | make _ _ | decode _ _ | applyRawEffect _ => exact hs

/-! ### The invariants along commands to the blocks -/

theorem movedFromState_wf (c : Config.AnyContents) : (movedFromState c).wf :=
  ⟨Memory.ofBytes_wf c.mem, insertWhatFits_wf c.entries [] bptWf_nil⟩

/-- After a write of one block, every block is the written state or one that stood there before. -/
theorem eq_or_mem_of_mem_putBlock (bs cs : List State) (dst : Option Nat) (s t : State) (k : Nat)
    (h : putBlock bs dst s = some (k, cs)) (ht : t ∈ cs) : t = s ∨ t ∈ bs := by
  obtain ⟨hk, hother, -⟩ := putBlock_spec bs cs dst s k h
  obtain ⟨j, hj⟩ := List.mem_iff_getElem?.1 ht
  by_cases hjk : j = k
  · subst hjk
    exact .inl (Option.some.inj (hj.symm.trans hk))
  · exact .inr (List.mem_of_getElem? (hother j hjk ▸ hj))

theorem putBlock_wf (bs cs : List State) (dst : Option Nat) (s : State) (k : Nat) (hbs : ∀ t ∈ bs, t.wf) (hs : s.wf)
    (h : putBlock bs dst s = some (k, cs)) : ∀ t ∈ cs, t.wf := fun t ht => by
  obtain rfl | ht := eq_or_mem_of_mem_putBlock bs cs dst s t k h ht
  · exact hs
  · exact hbs t ht

theorem set_blocks_wf (bs : List State) (k : Nat) (s : State) (hbs : ∀ t ∈ bs, t.wf) (hs : s.wf) :
    ∀ t ∈ bs.set k s, t.wf := fun t ht => by
  obtain ht | rfl := List.mem_or_eq_of_mem_set ht
  · exact hbs t ht
  · exact hs

theorem blocksCommand_wf (c : BlocksCommand) (b b' : Blocks) (r : BlocksResponse) (hb : ∀ s ∈ b.blocks, s.wf)
    (h : blocksCommand c b = some (r, b')) : ∀ s ∈ b'.blocks, s.wf := by
  cases c with
  | create =>
    cases h
    exact putBlock_wf b.blocks _ none State.reset _ hb reset_wf (putBlock_new b.blocks State.reset)
  | onBlock k c =>
    simp only [blocksCommand] at h
    split at h
    · cases h
    · next s hk =>
      cases h
      exact set_blocks_wf b.blocks k _ hb (command_wf b.draws c s (hb s (List.mem_of_getElem? hk)))
  | copy src dst =>
    simp only [blocksCommand] at h
    split at h
    · cases h
    · next s hsrc =>
      split at h
      · cases h
      · next k bs hput =>
        cases h
        exact putBlock_wf b.blocks bs dst s k hb (hb s (List.mem_of_getElem? hsrc)) hput
  | move src dst =>
    simp only [blocksCommand] at h
    split at h
    · cases h
    · next s hsrc =>
      split at h
      · cases h
      · next k bs hput =>
        cases h
        have hbs : ∀ t ∈ bs, t.wf := putBlock_wf b.blocks bs dst s k hb (hb s (List.mem_of_getElem? hsrc)) hput
        exact set_blocks_wf bs src _ hbs (movedFromState_wf _)

/-! ### The obligations -/

/-- Settles O19: the write of STR keeps memory canonical, and no step touches the table. -/
theorem stepKeepsInvariant : Obligations.StepKeepsInvariant := step_wf

/-- Settles O44: per command, a run by induction on its budget. -/
theorem commandsKeepInvariant : Obligations.CommandsKeepInvariant := command_wf

/-- Settles O16, from the columns of R69's table. -/
theorem executeFrame : Obligations.ExecuteFrame := by
  intro i s t h
  obtain rfl := (exec_next_iff i s t).1 h
  refine ⟨rfl, rfl, fun hacc => ?_, fun hnone => ?_, fun b hb => ?_, fun a ha => ?_⟩
  · rw [wrapRaw_acc, rawEffect_acc_of_not_writesAcc i s hacc, maskToByte_toNat]
  · rw [wrapRaw_mem, rawEffect_mem, hnone, Option.elim_none]
  · rw [wrapRaw_mem, rawEffect_mem]
    cases hst : storedAddress i with
    | none => rfl
    | some a => exact Memory.read_write_other s.mem a b s.acc fun hba => hb (hba ▸ hst)
  · rw [wrapRaw_mem, rawEffect_mem, ha, Option.elim_some, Memory.read_write_same]

/-- Settles O24: a step starts at an even PC, and the advance by 2 keeps it even. -/
theorem oddPcOnlyByJump : Obligations.OddPcOnlyByJump := by
  intro s t h
  obtain ⟨hp, i, hd, rfl⟩ := step_next_rawEffect s t h
  rw [pcMisaligned_eq_false_iff] at hp
  have hadvance : (s.pc + 2).toNat = (s.pc.toNat + 2) % 256 := BitVec.toNat_add s.pc 2
  refine ⟨i, hd, ?_⟩
  rw [countCycle_pc, wrapRaw_rawEffect_pc]
  cases jumpTaken i s with
  | true => simp
  | false =>
    simp only [Bool.false_eq_true, if_false, hadvance]
    exact ⟨by omega, fun _ => trivial⟩

/-- Settles O25: the alignment check, the fetch and the raw effect read neither the counter nor the table. -/
theorem stepIgnoresBookkeeping : Obligations.StepIgnoresBookkeeping := by
  intro s c b
  have hfetch : fetchWord { s with cycles := c, bpt := b } = fetchWord s := rfl
  cases hp : pcMisaligned s with
  | true =>
    rw [step_of_misaligned s hp, step_of_misaligned { s with cycles := c, bpt := b } hp]
    exact ⟨fun t h => (nomatch h), fun f h => h⟩
  | false =>
    cases hd : decode (fetchWord s) with
    | invalid op =>
      rw [step_of_invalid s op hp hd, step_of_invalid { s with cycles := c, bpt := b } op hp (hfetch ▸ hd)]
      exact ⟨fun t h => (nomatch h), fun f h => h⟩
    | instr i =>
      rw [step_of_instr s i hp hd, step_of_instr { s with cycles := c, bpt := b } i hp (hfetch ▸ hd),
        rawEffect_bookkeeping]
      refine ⟨fun t h => ?_, fun f h => (nomatch h)⟩
      cases h
      rfl

/-- Settles O56: every block after the command was there before, is at reset, is a command's result or is a moved-from
state, and each of these meets the invariants. -/
theorem blocksKeepInvariant : Obligations.BlocksKeepInvariant := blocksCommand_wf

/-- Settles O20: memory and table are empty. -/
theorem resetMeetsInvariant : Obligations.ResetMeetsInvariant := reset_wf

end Sys2Proof.Machine
end

section
/-! PROOFS. The memory (spec/20_memory.md): an encoded instruction in memory is what the next step runs, a store is seen by
the very next fetch, and which of the host's commands write memory and the registers, and which the table. -/

namespace Sys2Proof.Machine

/-! ### An encoding that the fetch reads (R41, R65, R143) -/

/-- R143 over the model's memory: the opcode byte at PC, the address byte after it. -/
theorem fetchWord_eq (s : State) : fetchWord s = ⟨s.mem.read s.pc, s.mem.read (s.pc + 1)⟩ := rfl

/-- R65: decoding undoes encoding. -/
theorem decode_encode (i : Instr) : decode (encode i) = .instr i := by
  cases i <;> rfl

/-- A step that fetches an encoding runs the encoded instruction. -/
theorem step_of_fetch_encode (s : State) (i : Instr) (hp : s.pc.toNat % 2 = 0) (hf : fetchWord s = encode i) :
    step s = .next (countCycle (wrapRaw (rawEffect i s) s)) :=
  step_of_instr s i ((pcMisaligned_eq_false_iff s).2 hp) (by rw [hf, decode_encode])

/-! ### A word placed at PC (log entry 2) -/

/-- R61: the 16-bit notation stands for its own two bytes. -/
theorem tableWordBytes_toWord16 (w : InstructionWord) : tableWordBytes 16 w.toWord16.toNat = w := by
  obtain ⟨op, addr⟩ := w
  have hop : op.toNat < 256 := op.isLt
  have haddr : addr.toNat < 256 := addr.isLt
  have hword : (op.toNat * 256 + addr.toNat) % 65536 = op.toNat * 256 + addr.toNat := Nat.mod_eq_of_lt (by omega)
  have hhigh : (op.toNat * 256 + addr.toNat) / 256 = op.toNat := by omega
  have hlow : (op.toNat * 256 + addr.toNat) % 256 = addr.toNat := by omega
  simp [tableWordBytes, InstructionWord.toWord16, InstructionWord.ofWord16, hword, hhigh, hlow]

/-- Clearing bit 0 leaves an even address as it is: bit 0 is its parity, and the mask keeps the seven others. -/
theorem and_0xFE_of_even (p : Addr) (hp : p.toNat % 2 = 0) : p &&& 0xFE = p := by
  have hmask : ∀ i < 8, i ≠ 0 → (0xFE : Addr).getLsbD i = true := by decide
  refine BitVec.eq_of_getLsbD_eq fun i hi => ?_
  rw [BitVec.getLsbD_and]
  by_cases h0 : i = 0
  · have hbit : p.getLsbD i = false := by simp [h0, BitVec.getLsbD, hp]
    rw [hbit, Bool.false_and]
  · rw [hmask i hi h0, Bool.and_true]

/-- At an even PC the placing writes the word's two bytes and nothing else. -/
theorem withFetchWord_toWord16 (s : State) (w : InstructionWord) (hp : s.pc.toNat % 2 = 0) :
    s.withFetchWord 16 w.toWord16.toNat =
      s.withMem ((s.mem.write s.pc w.opcode).write (s.pc + 1) w.operandAddress) := by
  rw [State.withFetchWord, tableWordBytes_toWord16, placeAtFetch, and_0xFE_of_even s.pc hp]
  rfl

/-- The two bytes of a fetch lie in different cells, at 255 and 0 too. -/
theorem addr_ne_succ (p : Addr) : p ≠ p + 1 := by bv_omega

/-- The fetch after a write of a word's two bytes at PC and PC+1 reads that word (R41). -/
theorem fetchWord_withMem_word (s : State) (w : InstructionWord) :
    fetchWord (s.withMem ((s.mem.write s.pc w.opcode).write (s.pc + 1) w.operandAddress)) = w := by
  rw [fetchWord_eq, State.withMem_mem, State.withMem_pc, Memory.read_write_same,
    Memory.read_write_other _ _ _ _ (addr_ne_succ s.pc), Memory.read_write_same]

/-! ### What a step and a run leave in the table (R151, R192) -/

theorem step_bpt (s t : State) (h : step s = .next t) : t.bpt = s.bpt := by
  obtain ⟨-, i, -, rfl⟩ := step_next_rawEffect s t h
  rfl

/-- What every completed step keeps, a run of any budget keeps (R147). -/
theorem run_keeps (P : State → Prop) (hstep : ∀ s t, P s → step s = .next t → P t) (n : Nat) (s : State) (hs : P s) :
    P (run n s).2 := by
  induction n generalizing s with
  | zero => exact hs
  | succ n ih =>
    rw [run_succ]
    cases h : step s with
    | fault f => exact hs
    | refused r => exact hs
    | next t =>
      have ht : P t := hstep s t hs h
      cases hb : isBreakpoint t with
      | true => simpa [hb] using ht
      | false => simpa [hb] using ih t ht

theorem run_bpt (n : Nat) (s : State) : (run n s).2.bpt = s.bpt :=
  run_keeps (fun t => t.bpt = s.bpt) (fun u t hu h => (step_bpt u t h).trans hu) n s rfl

/-! ### What the registry's commands write (R153, R157, R158, R220) -/

theorem insertBreakpoint_ok (n : Nat) (name : Text) (s t : State) (h : insertBreakpoint n name s = .ok t) :
    ∃ b, t = s.withBpt b := by
  unfold insertBreakpoint at h
  split at h
  · next b hb =>
    cases h
    exact ⟨b, rfl⟩
  · cases h

theorem deleteByAddress_ok (n : Nat) (s t : State) (h : deleteByAddress n s = .ok t) : ∃ b, t = s.withBpt b := by
  unfold deleteByAddress at h
  split at h
  · cases h
    exact ⟨_, rfl⟩
  · cases h

theorem deleteByName_ok (name : Text) (s t : State) (h : deleteByName name s = .ok t) : ∃ b, t = s.withBpt b := by
  unfold deleteByName at h
  split at h
  · exact deleteByAddress_ok _ s t h
  · cases h

/-- A command that commits at most a new table writes at most the table: a failure leaves the old one (R187). -/
theorem commit_eq_withBpt (r : Except CommandFailure State) (s : State) (hr : ∀ t, r = .ok t → ∃ b, t = s.withBpt b) :
    ∃ b, (commit r s).2 = s.withBpt b := by
  cases r with
  | ok t => exact hr t rfl
  | error f => exact ⟨s.bpt, rfl⟩

/-- R220's column "state written" for the processor, as one equation. -/
theorem command_eq_withBpt (draw : Nat) (c : Command) (s : State) (hc : writesProcessor c = false) :
    ∃ b, (command draw c s).2 = s.withBpt b := by
  cases c with
  | run _ | loadState _ | execute _ => cases hc
  | insert n name => exact commit_eq_withBpt _ s fun t => insertBreakpoint_ok n name s t
  | deleteByAddress n => exact commit_eq_withBpt _ s fun t => deleteByAddress_ok n s t
  | deleteByName name => exact commit_eq_withBpt _ s fun t => deleteByName_ok name s t
  | saveState writable => exact ⟨s.bpt, saveCommand_state draw writable s⟩
  | isBreakpoint | findByAddress _ | findByName _ | count | readAcc | readPc | readCycles | readMem _
  | printProgram | make _ _ | decode _ _ | applyRawEffect _ => exact ⟨s.bpt, rfl⟩

/-- R220's column "state written" for the table. -/
theorem command_bpt (draw : Nat) (c : Command) (s : State) (hc : writesBreakpoints c = false) :
    (command draw c s).2.bpt = s.bpt := by
  cases c with
  | insert _ _ | deleteByAddress _ | deleteByName _ | loadState _ => cases hc
  | run n => exact run_bpt n s
  | execute i =>
    have hstate : (command draw (.execute i) s).2 = wrapRaw (rawEffect i s) s := executeDirect_state i s
    rw [hstate, wrapRaw_bpt]
  | saveState writable => exact congrArg State.bpt (saveCommand_state draw writable s)
  | isBreakpoint | findByAddress _ | findByName _ | count | readAcc | readPc | readCycles | readMem _
  | printProgram | make _ _ | decode _ _ | applyRawEffect _ => rfl

/-! ### The obligations -/

/-- Settles O22: the instruction was fetched before its store, and the next fetch reads the memory after it. -/
theorem storeSeenByNextFetch : Obligations.StoreSeenByNextFetch := by
  intro s a hp hf
  have hnext : s.pc + 2 + 1 = s.pc + 3 := BitVec.add_assoc s.pc 2 1
  have hacc : (wrapRaw (rawEffect (.str a) s) s).acc = s.acc := maskToByte_toNat s.acc
  have hpc : (wrapRaw (rawEffect (.str a) s) s).pc = s.pc + 2 := wrapRaw_rawEffect_pc (.str a) s
  have hmem : (wrapRaw (rawEffect (.str a) s) s).mem = s.mem.write a s.acc := rawEffect_mem (.str a) s
  refine ⟨_, step_of_fetch_encode s (.str a) hp hf, hpc, hacc, ?_, ?_⟩
  · rw [countCycle_mem, hmem, Memory.read_write_same]
  · rw [fetchWord_eq, countCycle_mem, countCycle_pc, hmem, hpc, hnext, Memory.read_write, Memory.read_write]
    simp only [eq_comm (b := a)]

/-- Settles O26: the placing is the write of the encoding's two bytes, and the fetch of them decodes to the
instruction. -/
theorem placedInstructionRuns : Obligations.PlacedInstructionRuns := by
  intro i s hp
  have hfetch := fetchWord_withMem_word s (encode i)
  refine ⟨_, _, withFetchWord_toWord16 s (encode i) hp, hfetch, rfl, rfl, rfl, rfl, fun a ha ha1 => ?_, exec_eq i _,
    step_of_fetch_encode _ i hp hfetch⟩
  rw [State.withMem_mem, Memory.read_write_other _ _ _ _ ha1, Memory.read_write_other _ _ _ _ ha]

/-- Settles O46: a command that does not write the processor gives the state with some table, and a run, by induction on
its budget, gives the table it found. -/
theorem commandsWriteOnlyTheirState : Obligations.CommandsWriteOnlyTheirState := by
  intro draw c s
  refine ⟨fun hc => ?_, command_bpt draw c s⟩
  obtain ⟨b, hb⟩ := command_eq_withBpt draw c s hc
  rw [hb]
  exact ⟨rfl, rfl, rfl, rfl⟩

end Sys2Proof.Machine
end

section
/-! PROOFS. The encoding (spec/30_encoding.md): decode and encode are inverse on the legal words, the opcode map decides, and
the execute contract with its raw tier. -/

namespace Sys2Proof.Machine

/-! ### Instructions as an opcode and an address (R63, R66) -/

@[simp] theorem opcode_ofOpcode (op : Opcode) (a : Addr) : (Instr.ofOpcode op a).opcode = op := by
  cases op <;> rfl

@[simp] theorem addr_ofOpcode (op : Opcode) (a : Addr) : (Instr.ofOpcode op a).addr = a := by
  cases op <;> rfl

/-- R66: an instruction is its opcode and its address, nothing else. -/
theorem ofOpcode_opcode_addr (i : Instr) : .ofOpcode i.opcode i.addr = i := by
  cases i <;> rfl

theorem encode_ofOpcode (op : Opcode) (a : Addr) : encode (.ofOpcode op a) = ⟨op.byte, a⟩ := by
  rw [encode, opcode_ofOpcode, addr_ofOpcode]

theorem Opcode.byte_toNat_lt (op : Opcode) : op.byte.toNat < 8 := by
  cases op <;> decide

/-- R63: the opcode bytes 0 to 7 are all taken. -/
theorem exists_opcode_byte (b : Byte) (hb : b.toNat < 8) : ∃ op : Opcode, op.byte = b := by
  have hcases : b = 0 ∨ b = 1 ∨ b = 2 ∨ b = 3 ∨ b = 4 ∨ b = 5 ∨ b = 6 ∨ b = 7 := by bv_omega
  rcases hcases with rfl | rfl | rfl | rfl | rfl | rfl | rfl | rfl
  exacts [⟨.add, rfl⟩, ⟨.and, rfl⟩, ⟨.orr, rfl⟩, ⟨.xor, rfl⟩, ⟨.ldr, rfl⟩, ⟨.str, rfl⟩, ⟨.jmp, rfl⟩, ⟨.jne, rfl⟩]

/-! ### What decoding can answer (R64, R65) -/

theorem decode_opcode_byte (op : Opcode) (ab : Byte) : decode ⟨op.byte, ab⟩ = .instr (.ofOpcode op ab) := by
  rw [← encode_ofOpcode, decode_encode]

/-- R64: an opcode byte of 8 or more differs from all eight that `decode` looks for. -/
theorem decode_of_illegal (w : InstructionWord) (hw : 8 ≤ w.opcode.toNat) : decode w = .invalid w.opcode := by
  have hne : ∀ b : Byte, b.toNat < 8 → w.opcode ≠ b := fun b hb he => by rw [he] at hw; omega
  simp [decode, hne]

/-- R65: a word decodes to an instruction exactly when it is the instruction's encoding. -/
theorem decode_eq_instr_iff (w : InstructionWord) (i : Instr) : decode w = .instr i ↔ encode i = w := by
  refine ⟨fun h => ?_, fun h => h ▸ decode_encode i⟩
  obtain ⟨ob, ab⟩ := w
  by_cases hob : ob.toNat < 8
  · obtain ⟨op, rfl⟩ := exists_opcode_byte ob hob
    rw [decode_opcode_byte, Decoded.instr.injEq] at h
    rw [← h, encode_ofOpcode]
  · rw [decode_of_illegal _ (Nat.le_of_not_lt hob)] at h
    cases h

theorem decode_eq_invalid_iff (w : InstructionWord) : decode w = .invalid w.opcode ↔ 8 ≤ w.opcode.toNat := by
  refine ⟨fun h => Nat.le_of_not_lt fun hlt => ?_, decode_of_illegal w⟩
  obtain ⟨op, hop⟩ := exists_opcode_byte w.opcode hlt
  have hi : decode w = .instr (.ofOpcode op w.operandAddress) :=
    (decode_eq_instr_iff w _).2 (by rw [encode_ofOpcode, hop])
  rw [hi] at h
  cases h

theorem decode_eq_ofOpcode_iff (w : InstructionWord) (op : Opcode) :
    (∃ a, decode w = .instr (.ofOpcode op a)) ↔ w.opcode = op.byte := by
  constructor
  · rintro ⟨a, ha⟩
    rw [← (decode_eq_instr_iff w _).1 ha, encode_ofOpcode]
  · intro h
    exact ⟨w.operandAddress, (decode_eq_instr_iff w _).2 (by rw [encode_ofOpcode, ← h])⟩

theorem wellFormed_eq_false_iff (w : InstructionWord) : w.wellFormed = false ↔ 8 ≤ w.opcode.toNat := by
  rw [InstructionWord.wellFormed, decide_eq_false_iff_not]
  exact Nat.not_lt

/-- The illegal words fail the check whatever the address byte holds, so 8 of the 256 opcode bytes pass it. -/
theorem countP_wellFormed (ab : Byte) :
    ((List.range 256).countP fun n => (InstructionWord.mk (BitVec.ofNat 8 n) ab).wellFormed) = 8 := by
  have hlt : ∀ n ∈ List.range 256,
      (InstructionWord.mk (BitVec.ofNat 8 n) ab).wellFormed = true ↔ decide (n < 8) = true := by
    intro n hn
    have hmod : n % 256 = n := Nat.mod_eq_of_lt (List.mem_range.1 hn)
    simp [InstructionWord.wellFormed, Config.numOpcodes, hmod]
  rw [List.countP_congr hlt]
  decide +kernel

theorem countP_not_wellFormed (ab : Byte) :
    ((List.range 256).countP fun n => !(InstructionWord.mk (BitVec.ofNat 8 n) ab).wellFormed) = 248 := by
  have hsum := List.length_eq_countP_add_countP
    (fun n => (InstructionWord.mk (BitVec.ofNat 8 n) ab).wellFormed) (l := List.range 256)
  rw [countP_wellFormed, List.length_range] at hsum
  simp only [Bool.not_eq_true, Bool.decide_eq_false] at hsum
  omega

/-! ### The opcode table: match and mask (R61, R63) -/

theorem ofWord16_toWord16 (w : InstructionWord) : .ofWord16 w.toWord16 = w := by
  have h := tableWordBytes_toWord16 w
  rwa [tableWordBytes, Nat.mod_eq_of_lt w.toWord16.isLt, BitVec.ofNat_toNat, BitVec.setWidth_eq] at h

/-- The mask of every row keeps the opcode byte and clears the address byte. -/
theorem and_0xFF00_toNat (w : BitVec 16) : (w &&& 0xFF00).toNat = 256 * (w.toNat / 256) := by
  have hmask : w &&& (0xFF00 : BitVec 16) = (w >>> 8) <<< 8 := by
    have hbits : ∀ i < 16, BitVec.getLsbD (0xFF00 : BitVec 16) i = decide (8 ≤ i) := by decide
    refine BitVec.eq_of_getLsbD_eq fun i hi => ?_
    rw [BitVec.getLsbD_and, hbits i hi]
    by_cases h8 : 8 ≤ i
    · simp [h8, hi]
    · simp [h8]
  have hw : w.toNat < 65536 := w.isLt
  rw [hmask, BitVec.toNat_shiftLeft, BitVec.toNat_ushiftRight, Nat.shiftLeft_eq, Nat.shiftRight_eq_div_pow]
  omega

/-- R63's columns: one mask for every row, and the row's opcode byte in the upper half of its match. -/
theorem encodingTable_columns :
    ∀ r ∈ encodingTable, r.mask = 0xFF00 ∧ r.bits.toNat = 256 * r.opcode.byte.toNat := by decide

theorem encodingTable_byte_injective :
    ∀ r ∈ encodingTable, ∀ r' ∈ encodingTable, r.opcode.byte = r'.opcode.byte → r = r' := by decide

/-- R63: a word fits a row exactly when its upper byte is the row's opcode byte. -/
theorem fits_iff_opcode (r : EncodingRow) (hr : r ∈ encodingTable) (w : BitVec 16) :
    r.fits w = true ↔ (InstructionWord.ofWord16 w).opcode = r.opcode.byte := by
  obtain ⟨hmask, hbits⟩ := encodingTable_columns r hr
  have hw : w.toNat < 65536 := w.isLt
  have hhigh : (BitVec.ofNat 8 (w.toNat / 256)).toNat = w.toNat / 256 := by
    rw [BitVec.toNat_ofNat]; omega
  rw [EncodingRow.fits, decide_eq_true_iff, hmask, ← BitVec.toNat_inj, and_0xFF00_toNat, hbits,
    InstructionWord.ofWord16, ← BitVec.toNat_inj, hhigh]
  omega

/-! ### Masking and the raw results (R68, R69) -/

/-- R5: masking an integer is `mod 256`, of negative values too. -/
theorem toNat_maskToByte (v : Int) : ((maskToByte v).toNat : Int) = v % 256 := by
  rw [maskToByte, BitVec.toNat_ofInt]
  omega

/-- Every raw accumulator but ADD's is a byte as it stands. -/
theorem rawEffect_acc_of_ne_add (i : Instr) (s : State) (hi : i.opcode ≠ .add) :
    ∃ b : Byte, (rawEffect i s).acc = b.toNat := by
  cases i with
  | add a => exact absurd rfl hi
  | and a | orr a | xor a | ldr a | str a | jmp a | jne a => exact ⟨_, rfl⟩

/-- R69's range of the raw accumulator: 510 is the greatest sum of two bytes. -/
theorem rawEffect_acc_range (i : Instr) (s : State) : 0 ≤ (rawEffect i s).acc ∧ (rawEffect i s).acc ≤ 510 := by
  by_cases hi : i.opcode = .add
  · obtain ⟨a, rfl⟩ : ∃ a, i = .add a := ⟨i.addr, by rw [← ofOpcode_opcode_addr i, hi]; rfl⟩
    have hacc : s.acc.toNat < 256 := s.acc.isLt
    have hmem : (s.mem.read a).toNat < 256 := (s.mem.read a).isLt
    have hsum : (rawEffect (.add a) s).acc = (s.acc.toNat : Int) + (s.mem.read a).toNat := rfl
    omega
  · obtain ⟨b, hb⟩ := rawEffect_acc_of_ne_add i s hi
    have hlt : b.toNat < 256 := b.isLt
    omega

theorem rawJumpTarget_range (a : Addr) : -2 ≤ rawJumpTarget a ∧ rawJumpTarget a ≤ 253 := by
  have ha : a.toNat < 256 := a.isLt
  rw [rawJumpTarget]
  omega

/-- R232: the direct `execute` answers with the wrapped raw effect. -/
theorem executeDirect_eq (i : Instr) (s : State) : executeDirect i s = (.ok, wrapRaw (rawEffect i s) s) := by
  rw [executeDirect, exec_eq]

/-! ### The obligations -/

/-- Settles O1: a word decodes to an instruction exactly when it is its encoding. -/
theorem decodeEncodeAgree : Obligations.DecodeEncodeAgree := by
  refine ⟨decode_encode, fun w i => (decode_eq_instr_iff w i).1, decode_opcode_byte, decode_of_illegal, fun i => ?_,
    fun _ _ _ _ => rfl⟩
  rw [decodeTableWord, tableWordBytes_toWord16, decode_encode]

/-- Settles O2: under every row's mask what is compared is the opcode byte. -/
theorem opcodeMapRowsDecide : Obligations.OpcodeMapRowsDecide := by
  refine ⟨rfl, by decide, fun r hr w => ?_, fun r hr r' hr' w h h' => ?_, fun r hr a => ?_, countP_wellFormed⟩
  · rw [fits_iff_opcode r hr, decode_eq_ofOpcode_iff]
  · rw [fits_iff_opcode r hr] at h
    rw [fits_iff_opcode r' hr'] at h'
    exact encodingTable_byte_injective r hr r' hr' (h.symm.trans h')
  · rw [fits_iff_opcode r hr, ofWord16_toWord16]

/-- Settles O3: the decoder and the check of R64 refuse the same words, and a step reports them. -/
theorem illegalOpcodesInvalid : Obligations.IllegalOpcodesInvalid := by
  refine ⟨decode_eq_invalid_iff, wellFormed_eq_false_iff, countP_not_wellFormed, fun s hp hop => ?_, rfl, fun p => rfl⟩
  exact step_of_invalid s _ ((pcMisaligned_eq_false_iff s).2 hp) (decode_of_illegal (fetchWord s) hop)

/-- Settles O14: the wrapper stores the masked raw results and touches nothing else. -/
theorem executeContract : Obligations.ExecuteContract :=
  ⟨toNat_maskToByte, fun i s => ⟨_, exec_eq i s, rfl, rfl, rfl, rfl, rfl, wrapRaw_rawEffect_pc i s⟩⟩

/-- Settles O15: the rows are the model's raw effects, and all but ADD's sum and a jump's target are bytes. -/
theorem rawEffectTable : Obligations.RawEffectTable := by
  refine ⟨fun a s => ⟨rfl, rfl, rfl, rfl, rfl, rfl, rfl, ?_⟩, fun i s => ?_, fun _ _ _ => rfl⟩
  · simp only [rawEffect, rawJne, accNonZero_iff, rawJumpTarget]
  · obtain ⟨hlow, hhigh⟩ := rawEffect_acc_range i s
    refine ⟨hlow, hhigh, fun hi => ?_, ?_⟩
    · obtain ⟨b, hb⟩ := rawEffect_acc_of_ne_add i s hi
      have hlt : b.toNat < 256 := b.isLt
      omega
    · rw [rawEffect_pc]
      cases jumpTaken i s with
      | true => exact rawJumpTarget_range i.addr
      | false => rfl

/-- Settles O5: `make` masks its number, and an instruction is its opcode and its address. -/
theorem makeMasksAddress : Obligations.MakeMasksAddress := by
  have hmake : ∀ (op : Opcode) (n : Nat), (make op n).addr.toNat = n % 256 := fun op n => by
    rw [make, addr_ofOpcode, maskAddress, BitVec.toNat_ofNat]
  refine ⟨fun op n => ⟨opcode_ofOpcode op _, hmake op n⟩, fun i => ⟨(ofOpcode_opcode_addr i).symm, ?_⟩, fun op => ?_,
    fun _ _ _ _ => rfl⟩
  · exact Nat.le_of_lt_succ i.addr.isLt
  · simp [hmake]

/-- Settles O48: the direct `execute` is the contract of R68 alone, and without a taken jump its advance is by 2. -/
theorem directExecuteIgnoresStepChecks : Obligations.DirectExecuteIgnoresStepChecks := by
  intro draw i s
  refine ⟨_, executeDirect_eq i s, exec_eq i s, rfl, rfl, fun hj => ?_⟩
  rw [wrapRaw_rawEffect_pc, hj]
  exact BitVec.toNat_add s.pc 2

end Sys2Proof.Machine
end

section
/-! PROOFS. The assembler (spec/30_encoding.md R72): what a number is, how a line splits into its parts, and what each
form of line places. -/

namespace Sys2Proof.Machine

/-! ### Numbers (R72) -/

/-- All the hexadecimal digits stand below code 103, so that a finite table holds them. -/
theorem toNat_of_hexDigit (c : Char) (v : Nat) (h : hexDigit c = some v) :
    48 ≤ c.toNat ∧ c.toNat ≠ 59 ∧ c.toNat < 103 := by
  unfold hexDigit at h
  split at h
  · omega
  · split at h
    · omega
    · split at h
      · omega
      · cases h

/-- An alphabet of digits in the order of their values gives each its place. -/
theorem hexDigit_of_getElem? (alphabet : Text) (hvalues : alphabet.map hexDigit = (List.range 16).map some) (c : Char)
    (v : Nat) (hc : alphabet[v]? = some c) : hexDigit c = some v := by
  have hv := congrArg (fun vs => vs[v]?) hvalues
  simp only [List.getElem?_map, hc, Option.map_some] at hv
  obtain ⟨u, hu, hcu⟩ := Option.map_eq_some_iff.1 hv.symm
  obtain ⟨hlt, rfl⟩ := List.getElem?_eq_some_iff.1 hu
  rw [← hcu, List.getElem_range]

/-- The digits that are read are those of the two alphabets, each at its place. -/
theorem hexDigit_eq_some_iff (c : Char) (v : Nat) : hexDigit c = some v ↔
    "0123456789abcdef".toList[v]? = some c ∨ "0123456789ABCDEF".toList[v]? = some c := by
  constructor
  · intro h
    have hread : ∀ k < 103, ∀ u ∈ hexDigit (Char.ofNat k),
        "0123456789abcdef".toList[u]? = some (Char.ofNat k) ∨ "0123456789ABCDEF".toList[u]? = some (Char.ofNat k) := by
      decide
    obtain ⟨-, -, hlt⟩ := toNat_of_hexDigit c v h
    have hc := hread c.toNat hlt v
    rw [Char.ofNat_toNat] at hc
    exact hc h
  · rintro (h | h)
    · exact hexDigit_of_getElem? _ (by decide) c v h
    · exact hexDigit_of_getElem? _ (by decide) c v h

theorem hexValue_eq_some_iff (before n : Nat) (ds : Text) : hexValue before ds = some n ↔
    ∃ vs, n = vs.foldl (fun a v => 16 * a + v) before ∧ List.Forall₂ (fun c v => hexDigit c = some v) ds vs := by
  induction ds generalizing before with
  | nil => simp [hexValue, eq_comm]
  | cons c ds ih =>
    rw [hexValue]
    cases hc : hexDigit c with
    | none => simp [List.forall₂_cons_left_iff, hc]
    | some d =>
      simp only [ih, List.forall₂_cons_left_iff, hc, Option.some.injEq]
      constructor
      · rintro ⟨vs, hn, hvs⟩
        exact ⟨d :: vs, hn, d, vs, rfl, hvs, rfl⟩
      · rintro ⟨_, hn, _, vs, rfl, hvs, rfl⟩
        exact ⟨vs, hn, hvs⟩

theorem parseNumber_eq_some_iff (x : Text) (n : Nat) :
    parseNumber x = some n ↔ (x ≠ [] ∧ ∀ c ∈ x, isDigit c = true) ∧ digitsValue 0 x = n := by
  simp [parseNumber, List.all_eq_true]

theorem parseNumber_0x (ds : Text) : parseNumber ('0' :: 'x' :: ds) = none := by
  have hx : isDigit 'x' = false := by decide
  simp [parseNumber, hx]

theorem asmNumber_0x (d : Char) (ds : Text) :
    asmNumber ('0' :: 'x' :: d :: ds) = (hexValue 0 (d :: ds)).filter fun n => n < 256 := by
  simp only [asmNumber]
  cases hexValue 0 (d :: ds) with
  | none => rfl
  | some n => simp [Option.filter_some]

theorem asmNumber_of_not_0x (x : Text) (hx : ∀ ds, x ≠ '0' :: 'x' :: ds) :
    asmNumber x = (parseNumber x).filter fun n => n < 256 := by
  unfold asmNumber
  split
  · exact absurd rfl (hx _)
  · exact absurd rfl (hx _)
  · cases parseNumber x with
    | none => rfl
    | some n => simp [Option.filter_some]

/-- R72: a number is below 256, and decimal digits or `0x` and one or more hexadecimal digits. -/
theorem asmNumber_eq_some_iff (x : Text) (n : Nat) : asmNumber x = some n ↔
    n < 256 ∧ (parseNumber x = some n ∨ ∃ ds, x = '0' :: 'x' :: ds ∧ ds ≠ [] ∧ hexValue 0 ds = some n) := by
  by_cases hx : ∃ ds, x = '0' :: 'x' :: ds
  · obtain ⟨ds, rfl⟩ := hx
    cases ds with
    | nil => simp [asmNumber, parseNumber_0x]
    | cons d ds => simp [asmNumber_0x, parseNumber_0x, Option.filter_eq_some_iff, and_comm]
  · have hno : ∀ ds, x ≠ '0' :: 'x' :: ds := fun ds h => hx ⟨ds, h⟩
    simp [asmNumber_of_not_0x x hno, hno, Option.filter_eq_some_iff, and_comm]

/-! ### The parts of a line (R72, log entry 9) -/

/-- A character that neither separates parts, nor begins a comment, nor ends the line. -/
abbrev IsPartChar (c : Char) : Prop := isBlank c = false ∧ c ≠ ';' ∧ c ≠ lf

/-- A text that stands in a line as one part. -/
def isPart (t : Text) : Bool := !t.isEmpty && t.all fun c => decide (IsPartChar c)

/-- The parts that `asmLine` reads: those before the comment. -/
def lineParts (x : Text) : List Text := tokens (x.takeWhile fun c => decide (c ≠ ';'))

theorem isPart_iff (t : Text) : isPart t = true ↔ t ≠ [] ∧ ∀ c ∈ t, IsPartChar c := by
  simp [isPart, List.all_eq_true]

theorem lf_notMem_of_isPart (t : Text) (ht : isPart t = true) : lf ∉ t := by
  intro h
  obtain ⟨-, hall⟩ := (isPart_iff t).1 ht
  obtain ⟨-, -, hlf⟩ := hall lf h
  exact hlf rfl

/-- The separators have codes up to that of the space, and 59 is the semicolon's. -/
theorem isPartChar_of_toNat (c : Char) (h : 33 ≤ c.toNat) (h59 : c.toNat ≠ 59) : IsPartChar c := by
  have hne : ∀ d : Char, d.toNat < 33 ∨ d.toNat = 59 → c ≠ d := fun d hd he => by rw [he] at h h59; omega
  refine ⟨?_, hne ';' (by decide), hne lf (by decide)⟩
  rw [isBlank, decide_eq_false_iff_not]
  rintro (h | h)
  · exact hne ' ' (by decide) h
  · exact hne tab (by decide) h

theorem isPart_mnemonic (op : Opcode) : isPart (mnemonic op) = true := by
  cases op <;> rfl

theorem isPart_append_colon (l : Text) (hl : isPart l = true) : isPart (l ++ [':']) = true := by
  have hcolon : IsPartChar ':' := by decide
  obtain ⟨-, hall⟩ := (isPart_iff l).1 hl
  refine (isPart_iff _).2 ⟨by simp, fun c hc => ?_⟩
  rcases List.mem_append.1 hc with h | h
  · exact hall c h
  · rwa [List.mem_singleton.1 h]

/-- A label begins with no digit and is one part. -/
theorem exists_cons_of_isLabelText (l : Text) (hl : isLabelText l = true) :
    ∃ c cs, l = c :: cs ∧ isDigit c = false ∧ isPart l = true := by
  cases l with
  | nil => cases hl
  | cons c cs =>
    obtain ⟨hc, hall⟩ : isDigit c = false ∧ ∀ d ∈ c :: cs, d ≠ ' ' ∧ d ≠ tab ∧ d ≠ ';' ∧ d ≠ lf := by
      simpa only [isLabelText, Bool.and_eq_true, Bool.not_eq_true', List.all_eq_true, decide_eq_true_iff] using hl
    refine ⟨c, cs, rfl, hc, (isPart_iff _).2 ⟨by simp, fun d hd => ?_⟩⟩
    obtain ⟨hspace, htab, hsemi, hlf⟩ := hall d hd
    exact ⟨by simp [isBlank, hspace, htab], hsemi, hlf⟩

theorem isPartChar_of_isDigit (c : Char) (hc : isDigit c = true) : IsPartChar c := by
  obtain ⟨hlow, hhigh⟩ : 48 ≤ c.toNat ∧ c.toNat ≤ 57 := by simpa [isDigit] using hc
  exact isPartChar_of_toNat c (by omega) (by omega)

theorem isPartChar_of_hexValue (before n : Nat) (ds : Text) (h : hexValue before ds = some n) (c : Char) (hc : c ∈ ds) :
    IsPartChar c := by
  obtain ⟨vs, -, hvs⟩ := (hexValue_eq_some_iff before n ds).1 h
  obtain ⟨i, hi, rfl⟩ := List.getElem_of_mem hc
  obtain ⟨hlow, h59, -⟩ := toNat_of_hexDigit ds[i] _ (hvs.get hi (hvs.length_eq ▸ hi))
  exact isPartChar_of_toNat ds[i] (by omega) h59

/-- A number begins with a digit and is one part. -/
theorem exists_cons_of_asmNumber (x : Text) (n : Nat) (h : asmNumber x = some n) :
    ∃ c cs, x = c :: cs ∧ isDigit c = true ∧ isPart x = true := by
  obtain ⟨-, hdec | ⟨ds, rfl, -, hds⟩⟩ := (asmNumber_eq_some_iff x n).1 h
  · obtain ⟨⟨hne, hall⟩, -⟩ := (parseNumber_eq_some_iff x n).1 hdec
    obtain ⟨c, cs, rfl⟩ := List.exists_cons_of_ne_nil hne
    exact ⟨c, cs, rfl, hall c (by simp), (isPart_iff _).2 ⟨hne, fun d hd => isPartChar_of_isDigit d (hall d hd)⟩⟩
  · have hzero : IsPartChar '0' := by decide
    have hx : IsPartChar 'x' := by decide
    refine ⟨'0', 'x' :: ds, rfl, by decide, (isPart_iff _).2 ⟨by simp, ?_⟩⟩
    rw [List.forall_mem_cons, List.forall_mem_cons]
    exact ⟨hzero, hx, isPartChar_of_hexValue 0 n ds hds⟩

/-- A part reaches up to the next blank, and the comment begins after it. -/
theorem lineParts_part_blank (t x : Text) (ht : isPart t = true) : lineParts (t ++ ' ' :: x) = t :: lineParts x := by
  obtain ⟨hne, hall⟩ := (isPart_iff t).1 ht
  have hkeep : ∀ c ∈ t, decide (c ≠ ';') = true := fun c hc => decide_eq_true (hall c hc).2.1
  rw [lineParts, List.takeWhile_append_of_pos hkeep, List.takeWhile_cons_of_pos (by decide),
    tokens_word_append t _ ' ' hne (fun c hc => (hall c hc).1) (by decide)]
  rfl

theorem lineParts_part (t : Text) (ht : isPart t = true) : lineParts t = [t] := by
  obtain ⟨hne, hall⟩ := (isPart_iff t).1 ht
  have hkeep : t.takeWhile (fun c => decide (c ≠ ';')) = t :=
    List.takeWhile_eq_self_iff.2 fun c hc => decide_eq_true (hall c hc).2.1
  rw [lineParts, hkeep, tokens_word t hne fun c hc => (hall c hc).1]

/-- Nothing from the first `;` on is read. -/
theorem lineParts_comment (line comment : Text) : lineParts (line ++ ';' :: comment) = lineParts line := by
  have hkeep : (line ++ ';' :: comment).takeWhile (fun c => decide (c ≠ ';')) =
      line.takeWhile fun c => decide (c ≠ ';') := by
    induction line with
    | nil => rfl
    | cons c cs ih => rw [List.cons_append, List.takeWhile_cons, List.takeWhile_cons, ih]
  rw [lineParts, lineParts, hkeep]

/-- `asmLine` reads the parts of its line alone. -/
theorem asmLine_congr (x y : Text) (h : lineParts x = lineParts y) : asmLine x = asmLine y := by
  unfold lineParts at h
  rw [asmLine, h, asmLine]

theorem asmLine_of_lineParts (x m : Text) (ts : List Text) (hx : lineParts x = m :: ts) (hm : m.getLast? ≠ some ':') :
    asmLine x = asmStatement (m :: ts) := by
  unfold lineParts at hx
  rw [asmLine, hx]
  exact if_neg hm

theorem asmLine_of_lineParts_label (x l : Text) (ts : List Text) (items : List AsmItem)
    (hx : lineParts x = (l ++ [':']) :: ts) (hl : isLabelText l = true) (hts : asmStatement ts = some items) :
    asmLine x = some (.label l :: items) := by
  obtain ⟨c, cs, rfl, hc, -⟩ := exists_cons_of_isLabelText l hl
  unfold lineParts at hx
  have hlast : (c :: cs ++ [':']).getLast? = some ':' := List.getLast?_concat
  have hinit : (c :: cs ++ [':']).dropLast = c :: cs := List.dropLast_concat
  simp only [asmLine, hx, hlast, hinit, hts, hc, if_true, Bool.false_eq_true, if_false]

/-! ### Operands and statements (R72) -/

/-- A part that stands for an operand. -/
structure ReadsAs (x : Text) (v : AsmOperand) : Prop where
  part : isPart x = true
  operand : asmOperand x = some v

theorem readsAs_number (x : Text) (n : Nat) (h : asmNumber x = some n) : ReadsAs x (.number n) := by
  obtain ⟨c, cs, rfl, hc, hpart⟩ := exists_cons_of_asmNumber x n h
  exact ⟨hpart, by simp only [asmOperand, hc, h, if_true]⟩

theorem readsAs_label (l : Text) (hl : isLabelText l = true) : ReadsAs l (.label l) := by
  obtain ⟨c, cs, rfl, hc, hpart⟩ := exists_cons_of_isLabelText l hl
  exact ⟨hpart, by simp [asmOperand, hc]⟩

theorem asmStatement_org (x : Text) (v : AsmOperand) (hx : asmOperand x = some v) :
    asmStatement [".org".toList, x] = some [.org v] := by
  simp only [asmStatement, hx, if_true]

theorem asmStatement_byte (x : Text) (v : AsmOperand) (hx : asmOperand x = some v) :
    asmStatement [".byte".toList, x] = some [.byte v] := by
  have hne : ".byte".toList ≠ ".org".toList := by decide
  simp only [asmStatement, hx, hne, if_true, if_false]

theorem asmStatement_mnemonic (op : Opcode) (x : Text) (v : AsmOperand) (hx : asmOperand x = some v) :
    asmStatement [mnemonic op, x] = some [.instr op v] := by
  have horg : mnemonic op ≠ ".org".toList := by cases op <;> decide
  have hbyte : mnemonic op ≠ ".byte".toList := by cases op <;> decide
  have hop : opcodeOfMnemonic (mnemonic op) = some op := by cases op <;> rfl
  simp only [asmStatement, hx, horg, hbyte, hop, if_false]

/-! ### The forms of a line (R72) -/

/-- A line of a source text, and the items it stands for. -/
structure LineReads (x : Text) (items : List AsmItem) : Prop where
  noLf : lf ∉ x
  reads : asmLine x = some items

theorem lf_notMem_append_blank (x y : Text) (hx : lf ∉ x) (hy : lf ∉ y) : lf ∉ x ++ ' ' :: y := by
  have hne : lf ≠ ' ' := by decide
  simp [hx, hy, hne]

theorem lineReads_statement (m x : Text) (items : List AsmItem) (hm : isPart m = true) (hlast : m.getLast? ≠ some ':')
    (hx : isPart x = true) (hs : asmStatement [m, x] = some items) : LineReads (m ++ ' ' :: x) items where
  noLf := lf_notMem_append_blank m x (lf_notMem_of_isPart m hm) (lf_notMem_of_isPart x hx)
  reads := by
    rw [asmLine_of_lineParts _ m [x] (by rw [lineParts_part_blank m x hm, lineParts_part x hx]) hlast, hs]

theorem lineReads_org (x : Text) (v : AsmOperand) (hx : ReadsAs x v) : LineReads (".org ".toList ++ x) [.org v] :=
  lineReads_statement ".org".toList x _ rfl (by decide) hx.part (asmStatement_org x v hx.operand)

theorem lineReads_byte (x : Text) (v : AsmOperand) (hx : ReadsAs x v) : LineReads (".byte ".toList ++ x) [.byte v] :=
  lineReads_statement ".byte".toList x _ rfl (by decide) hx.part (asmStatement_byte x v hx.operand)

theorem lineReads_instr (op : Opcode) (x : Text) (v : AsmOperand) (hx : ReadsAs x v) :
    LineReads (mnemonic op ++ ' ' :: x) [.instr op v] :=
  lineReads_statement (mnemonic op) x _ (isPart_mnemonic op) (by cases op <;> decide) hx.part
    (asmStatement_mnemonic op x v hx.operand)

theorem lineReads_label (l : Text) (hl : isLabelText l = true) : LineReads (l ++ [':']) [.label l] := by
  have hpart := isPart_append_colon l (readsAs_label l hl).part
  exact ⟨lf_notMem_of_isPart _ hpart, asmLine_of_lineParts_label _ l [] [] (lineParts_part _ hpart) hl rfl⟩

/-- A label before a statement adds its item and leaves the statement's. -/
theorem lineReads_label_statement (l m x : Text) (items : List AsmItem) (hl : isLabelText l = true) (hm : isPart m = true)
    (hx : isPart x = true) (hs : asmStatement [m, x] = some items) :
    LineReads ((l ++ [':']) ++ ' ' :: (m ++ ' ' :: x)) (.label l :: items) := by
  have hpart := isPart_append_colon l (readsAs_label l hl).part
  refine ⟨?_, asmLine_of_lineParts_label _ l [m, x] items ?_ hl hs⟩
  · exact lf_notMem_append_blank _ _ (lf_notMem_of_isPart _ hpart)
      (lf_notMem_append_blank m x (lf_notMem_of_isPart m hm) (lf_notMem_of_isPart x hx))
  · rw [lineParts_part_blank _ _ hpart, lineParts_part_blank m x hm, lineParts_part x hx]

/-! ### Whole source texts -/

theorem asmLines_of_lineReads (ls : List Text) (itemLists : List (List AsmItem)) (h : List.Forall₂ LineReads ls itemLists) :
    (∀ l ∈ ls, lf ∉ l) ∧ asmLines ls = some itemLists.flatten := by
  induction h with
  | nil => exact ⟨by simp, rfl⟩
  | cons hl _ ih =>
    obtain ⟨hlf, hls⟩ := ih
    exact ⟨List.forall_mem_cons.2 ⟨hl.noLf, hlf⟩, by simp only [asmLines, hl.reads, hls, List.flatten_cons]⟩

/-- The two passes over the items of the lines, where both give an answer and no two bytes share an address. -/
theorem assemble_eq_some (ls : List Text) (itemLists : List (List AsmItem)) (labels : List (Text × Nat))
    (cells : List (Nat × Byte)) (h : List.Forall₂ LineReads ls itemLists)
    (hlabels : asmLabels 0 [] itemLists.flatten = some labels) (hbytes : asmBytes 0 labels itemLists.flatten = some cells)
    (hnodup : (cells.map Prod.fst).Nodup) : assemble (joinLines ls) = some cells := by
  obtain ⟨hlf, hls⟩ := asmLines_of_lineReads ls itemLists h
  simp only [assemble, splitLines_joinLines ls hlf, hls, hlabels, hbytes, hnodup, if_true]

theorem assemble_eq_none (ls : List Text) (itemLists : List (List AsmItem)) (h : List.Forall₂ LineReads ls itemLists)
    (hlabels : asmLabels 0 [] itemLists.flatten = none) : assemble (joinLines ls) = none := by
  obtain ⟨hlf, hls⟩ := asmLines_of_lineReads ls itemLists h
  simp only [assemble, splitLines_joinLines ls hlf, hls, hlabels]

theorem asmLines_congr (ls ms : List Text) (x y : Text) (h : asmLine x = asmLine y) :
    asmLines (ls ++ x :: ms) = asmLines (ls ++ y :: ms) := by
  induction ls with
  | nil => simp only [List.nil_append, asmLines, h]
  | cons l ls ih => simp only [List.cons_append, asmLines, ih]

/-! ### The obligations -/

/-- Settles O58: both lines are read part by part, and the first pass refuses an odd address. -/
theorem instructionLineAssembles : Obligations.InstructionLineAssembles := by
  have hnumber : ∀ n : Nat, n < 256 → asmNumber (decimal n) = some n := fun n hn =>
    (asmNumber_eq_some_iff _ n).2 ⟨hn, .inl (parseNumber_decimal n)⟩
  refine ⟨rfl, fun x n => ?_, hnumber, fun op y x k n hy hx => ?_⟩
  · rw [asmNumber_eq_some_iff]
    simp only [hexValue_eq_some_iff, hexDigit_eq_some_iff, exists_and_left]
  · have hk : k < 256 := ((asmNumber_eq_some_iff y k).1 hy).1
    have hlines : List.Forall₂ LineReads [".org ".toList ++ y, mnemonic op ++ ' ' :: x]
        [[.org (.number k)], [.instr op (.number n)]] :=
      .cons (lineReads_org y _ (readsAs_number y k hy)) (.cons (lineReads_instr op x _ (readsAs_number x n hx)) .nil)
    split
    · next heven =>
      exact assemble_eq_some _ _ [] _ hlines (by simp [asmLabels, asmValue, Config.memSize]; omega)
        (by simp [asmBytes, asmValue]) (by simp)
    · next hodd => exact assemble_eq_none _ _ hlines (by simp [asmLabels, asmValue, hodd])

/-- Settles O60: each line is read part by part, and the first pass gives a label the address of the next byte. -/
theorem sourceFormsAssemble : Obligations.SourceFormsAssemble := by
  refine ⟨fun y x k n hy hx => ?_, fun op op' y x l k n hy heven hk hx hl => ?_,
    fun op y z x l k m n hy heven hz hmk hmk1 hx hl => ?_, fun y x l k n hy hk hx hl => ?_,
    fun ls ms line comment hls hline hcomment => ?_⟩
  · have hk : k < 256 := ((asmNumber_eq_some_iff y k).1 hy).1
    exact assemble_eq_some _ _ [] _
      (.cons (lineReads_org y _ (readsAs_number y k hy)) (.cons (lineReads_byte x _ (readsAs_number x n hx)) .nil))
      (by simp [asmLabels, asmValue, Config.memSize]; omega) (by simp [asmBytes, asmValue]) (by simp)
  · have hlabelled : LineReads (l ++ ':' :: ' ' :: mnemonic op' ++ ' ' :: l) [.label l, .instr op' (.label l)] := by
      simpa using lineReads_label_statement l (mnemonic op') l _ hl (isPart_mnemonic op') (readsAs_label l hl).part
        (asmStatement_mnemonic op' l _ (readsAs_label l hl).operand)
    have hlabel : k + 2 < 256 := by omega
    exact assemble_eq_some _ _ [(l, k + 2)] _
      (.cons (lineReads_org y _ (readsAs_number y k hy)) (.cons (lineReads_instr op x _ (readsAs_number x n hx))
        (.cons hlabelled .nil)))
      (by simp [asmLabels, asmValue, Config.memSize, heven]; omega) (by simp [asmBytes, asmValue, hlabel]) (by simp)
  · have hm : m < 256 := ((asmNumber_eq_some_iff z m).1 hz).1
    have hk : k < 256 := ((asmNumber_eq_some_iff y k).1 hy).1
    have hlabelled : LineReads (l ++ ':' :: " .byte ".toList ++ x) [.label l, .byte (.number n)] := by
      simpa using lineReads_label_statement l ".byte".toList x _ hl rfl (readsAs_number x n hx).part
        (asmStatement_byte x _ (readsAs_number x n hx).operand)
    exact assemble_eq_some _ _ [(l, m)] _
      (.cons (lineReads_org y _ (readsAs_number y k hy)) (.cons (lineReads_instr op l _ (readsAs_label l hl))
        (.cons (lineReads_org z _ (readsAs_number z m hz)) (.cons hlabelled .nil))))
      (by simp [asmLabels, asmValue, Config.memSize, heven]; omega) (by simp [asmBytes, asmValue, hm])
      (by simp; omega)
  · have hlabel : k + 1 < 256 := by omega
    exact assemble_eq_some _ _ [(l, k + 1)] _
      (.cons (lineReads_org y _ (readsAs_number y k hy)) (.cons (lineReads_byte x _ (readsAs_number x n hx))
        (.cons (lineReads_label l hl) (.cons (lineReads_byte l _ (readsAs_label l hl)) .nil))))
      (by simp [asmLabels, asmValue, Config.memSize]; omega) (by simp [asmBytes, asmValue, hlabel]) (by simp)
  · have hsame : asmLine (line ++ ';' :: comment) = asmLine line := asmLine_congr _ _ (lineParts_comment line comment)
    have hsemi : lf ≠ ';' := by decide
    have hcommented : lf ∉ line ++ ';' :: comment := by simp [hline, hcomment, hsemi]
    have hlf : ∀ x : Text, lf ∉ x → ∀ l ∈ ls ++ x :: ms, lf ∉ l := fun x hx l hl => by
      rcases List.mem_append.1 hl with h | h
      · exact hls l (List.mem_append_left ms h)
      · rcases List.mem_cons.1 h with rfl | h
        · exact hx
        · exact hls l (List.mem_append_right ls h)
    rw [assemble, assemble, splitLines_joinLines _ (hlf _ hcommented), splitLines_joinLines _ (hlf _ hline),
      asmLines_congr ls ms _ _ hsame]

end Sys2Proof.Machine
end

section
/-! PROOFS. The ALU (spec/40_alu.md): ADD, AND, ORR and XOR write the accumulator, advance PC and leave the rest. -/

namespace Sys2Proof.Machine

/-! ### An instruction that neither jumps nor stores (R68, R69) -/

/-- Without a taken jump and without a store, the next state differs from the state in the masked accumulator and in the
advance of PC alone. -/
theorem exec_of_no_jump_no_store (i : Instr) (s : State) (hj : jumpTaken i s = false) (hst : storedAddress i = none) :
    exec i s = .next { s with acc := maskToByte (rawEffect i s).acc, pc := s.pc + 2 } := by
  have hpc : (wrapRaw (rawEffect i s) s).pc = s.pc + 2 := by
    rw [wrapRaw_rawEffect_pc, hj, if_neg Bool.false_ne_true]
  have hmem : (wrapRaw (rawEffect i s) s).mem = s.mem := by
    rw [wrapRaw_mem, rawEffect_mem, hst, Option.elim_none]
  rw [exec_eq, Host.Outcome.next.injEq]
  exact State.eq_of_fields _ _ rfl hpc hmem rfl rfl

/-- As `exec_of_no_jump_no_store`, where the raw accumulator is a byte: the mask keeps it. -/
theorem exec_of_raw_acc_byte (i : Instr) (s : State) (b : Byte) (hj : jumpTaken i s = false)
    (hst : storedAddress i = none) (hacc : (rawEffect i s).acc = b.toNat) :
    exec i s = .next { s with acc := b, pc := s.pc + 2 } := by
  rw [exec_of_no_jump_no_store i s hj hst, hacc, maskToByte_toNat]

/-! ### The accumulator column of R69's table, for the four ALU instructions -/

theorem rawEffect_add_acc (a : Addr) (s : State) :
    (rawEffect (.add a) s).acc = (s.acc.toNat : Int) + (s.mem.read a).toNat := rfl

theorem rawEffect_and_acc (a : Addr) (s : State) :
    (rawEffect (.and a) s).acc = ((s.acc &&& s.mem.read a).toNat : Int) := rfl

theorem rawEffect_orr_acc (a : Addr) (s : State) :
    (rawEffect (.orr a) s).acc = ((s.acc ||| s.mem.read a).toNat : Int) := rfl

theorem rawEffect_xor_acc (a : Addr) (s : State) :
    (rawEffect (.xor a) s).acc = ((s.acc ^^^ s.mem.read a).toNat : Int) := rfl

/-! ### The obligations -/

/-- Settles O6: the raw accumulator is the exact sum of two bytes, and the mask takes it to their 8-bit sum. -/
theorem addWrapsModulo256 : Obligations.AddWrapsModulo256 := by
  intro a s
  obtain ⟨hlow, hhigh⟩ := rawEffect_acc_range (.add a) s
  refine ⟨encode_ofOpcode .add a, decode_opcode_byte .add a, rawEffect_add_acc a s, hlow, hhigh,
    BitVec.toNat_add s.acc (s.mem.read a), ?_⟩
  rw [exec_of_no_jump_no_store (.add a) s rfl rfl, rawEffect_add_acc, maskToByte_add]

/-- Settles O7: the raw accumulator is a byte, which the mask keeps. -/
theorem andIsBitwise : Obligations.AndIsBitwise := fun a s =>
  ⟨encode_ofOpcode .and a, decode_opcode_byte .and a, rawEffect_and_acc a s,
    exec_of_raw_acc_byte (.and a) s _ rfl rfl (rawEffect_and_acc a s)⟩

/-- Settles O8: the raw accumulator is a byte, which the mask keeps. -/
theorem orrIsBitwise : Obligations.OrrIsBitwise := fun a s =>
  ⟨encode_ofOpcode .orr a, decode_opcode_byte .orr a, rawEffect_orr_acc a s,
    exec_of_raw_acc_byte (.orr a) s _ rfl rfl (rawEffect_orr_acc a s)⟩

/-- Settles O9: the raw accumulator is a byte, which the mask keeps. -/
theorem xorIsBitwise : Obligations.XorIsBitwise := fun a s =>
  ⟨encode_ofOpcode .xor a, decode_opcode_byte .xor a, rawEffect_xor_acc a s,
    exec_of_raw_acc_byte (.xor a) s _ rfl rfl (rawEffect_xor_acc a s)⟩

end Sys2Proof.Machine
end

section
/-! PROOFS. Load and store (spec/41_load_store.md): LDR reads its one cell, STR writes its one cell, and a cell that no
completed step stores to keeps its byte. -/

namespace Sys2Proof.Machine

/-! ### The rows of R69's table for LDR and STR -/

theorem rawEffect_ldr_acc (a : Addr) (s : State) : (rawEffect (.ldr a) s).acc = ((s.mem.read a).toNat : Int) := rfl

/-- R100 as one equation: LDR neither jumps nor stores, and the loaded byte is its own masked value. -/
theorem exec_ldr (a : Addr) (s : State) :
    exec (.ldr a) s = .next { s with acc := s.mem.read a, pc := s.pc + 2 } :=
  exec_of_raw_acc_byte (.ldr a) s _ rfl rfl (rawEffect_ldr_acc a s)

/-- R101 as one equation: STR writes the memory and keeps the accumulator. -/
theorem exec_str (a : Addr) (s : State) :
    exec (.str a) s = .next { s with mem := s.mem.write (effectiveAddress a) s.acc, pc := s.pc + 2 } := by
  have hacc : (wrapRaw (rawEffect (.str a) s) s).acc = s.acc := maskToByte_toNat s.acc
  have hpc : (wrapRaw (rawEffect (.str a) s) s).pc = s.pc + 2 := wrapRaw_rawEffect_pc (.str a) s
  have hmem : (wrapRaw (rawEffect (.str a) s) s).mem = s.mem.write (effectiveAddress a) s.acc :=
    rawEffect_mem (.str a) s
  rw [exec_eq, Host.Outcome.next.injEq]
  exact State.eq_of_fields _ _ hacc hpc hmem rfl rfl

/-! ### A cell that no completed step stores to (R23, R53) -/

/-- One completed step more is the first step and the others from where it leads. -/
theorem stepsFrom_succ_eq_some_iff (n : Nat) (s t : State) :
    stepsFrom (n + 1) s = some t ↔ ∃ u, step s = .next u ∧ stepsFrom n u = some t := by
  rw [stepsFrom]
  cases step s with
  | next u => simp
  | fault f => simp
  | refused r => simp

/-- A completed step changes a cell only where the instruction it fetched stores to it. -/
theorem step_read_of_not_stored (s t : State) (a : Addr) (h : step s = .next t)
    (hst : ∀ i, decode (fetchWord s) = .instr i → storedAddress i ≠ some a) : t.mem.read a = s.mem.read a := by
  obtain ⟨-, i, u, hd, hu, rfl⟩ := step_next s t h
  obtain ⟨-, -, -, -, hother, -⟩ := executeFrame i s u hu
  rw [countCycle_mem]
  exact hother a (hst i hd)

/-- By induction on the steps: the first keeps the cell, and the others are steps from the state it leads to. -/
theorem stepsFrom_read_of_not_stored (n : Nat) (s t : State) (a : Addr) (h : stepsFrom n s = some t)
    (hst : ∀ k u i, k < n → stepsFrom k s = some u → decode (fetchWord u) = .instr i → storedAddress i ≠ some a) :
    t.mem.read a = s.mem.read a := by
  induction n generalizing s with
  | zero =>
    cases h
    rfl
  | succ n ih =>
    obtain ⟨u, hu, hrest⟩ := (stepsFrom_succ_eq_some_iff n s t).1 h
    have hfirst : u.mem.read a = s.mem.read a :=
      step_read_of_not_stored s u a hu fun i => hst 0 s i n.succ_pos rfl
    have hlater : t.mem.read a = u.mem.read a := ih u hrest fun k v i hk hv =>
      hst (k + 1) v i (Nat.succ_lt_succ hk) ((stepsFrom_succ_eq_some_iff k s v).2 ⟨u, hu, hv⟩)
    exact hlater.trans hfirst

/-! ### The obligations -/

/-- Settles O10: the corner cases read one of the two fetched bytes, and after the steps the cell holds what it held. -/
theorem ldrLoadsCell : Obligations.LdrLoadsCell := by
  intro a s
  refine ⟨encode_ofOpcode .ldr a, decode_opcode_byte .ldr a, rawEffect_ldr_acc a s, exec_ldr a s, fun hf ha => ?_,
    fun hf ha => ?_, Memory.read_nil a, fun n t h hst => ?_⟩
  · rw [ha]
    exact congrArg InstructionWord.opcode hf
  · have haddr : s.mem.read (s.pc + 1) = a := congrArg InstructionWord.operandAddress hf
    rwa [← ha] at haddr
  · rw [exec_ldr, stepsFrom_read_of_not_stored n s t a h hst]

/-- Settles O11: the one write of STR, read back at its cell and at the others. -/
theorem strStoresAccumulator : Obligations.StrStoresAccumulator := fun a s =>
  ⟨encode_ofOpcode .str a, decode_opcode_byte .str a, exec_str a s,
    Memory.read_write_same s.mem (effectiveAddress a) s.acc,
    fun b hb => Memory.read_write_other s.mem (effectiveAddress a) b s.acc hb⟩

end Sys2Proof.Machine
end

section
/-! PROOFS. Control (spec/42_control.md): JMP and JNE write PC alone, a taken jump to an odd target completes before the
next step faults, and what a run of a self-loop does. -/

namespace Sys2Proof.Machine

/-! ### An instruction that writes PC alone (R68, R69) -/

/-- Where neither the accumulator nor the memory is written, the wrapped raw effect is R68's net effect on PC. -/
theorem wrapRaw_rawEffect_of_pc_only (i : Instr) (s : State) (hacc : writesAcc i = false)
    (hst : storedAddress i = none) :
    wrapRaw (rawEffect i s) s = { s with pc := if jumpTaken i s then i.addr else s.pc + 2 } := by
  have haccEq : (wrapRaw (rawEffect i s) s).acc = s.acc := by
    rw [wrapRaw_acc, rawEffect_acc_of_not_writesAcc i s hacc, maskToByte_toNat]
  have hmemEq : (wrapRaw (rawEffect i s) s).mem = s.mem := by
    rw [wrapRaw_mem, rawEffect_mem, hst, Option.elim_none]
  exact State.eq_of_fields _ _ haccEq (wrapRaw_rawEffect_pc i s) hmemEq rfl rfl

theorem wrapRaw_rawEffect_jmp (a : Addr) (s : State) : wrapRaw (rawEffect (.jmp a) s) s = { s with pc := a } :=
  wrapRaw_rawEffect_of_pc_only (.jmp a) s rfl rfl

/-- R120 as one equation: the target is reached exactly. -/
theorem exec_jmp (a : Addr) (s : State) : exec (.jmp a) s = .next { s with pc := a } := by
  rw [exec_eq, wrapRaw_rawEffect_jmp]

/-- JNE jumps by the accumulator itself (R24, R121). -/
theorem jumpTaken_jne_iff (a : Addr) (s : State) : jumpTaken (.jne a) s = true ↔ s.acc ≠ 0 := accNonZero_iff s

/-- R121 as one equation: the target where the accumulator is not 0, else the next instruction. -/
theorem exec_jne (a : Addr) (s : State) :
    exec (.jne a) s = .next { s with pc := if s.acc ≠ 0 then a else s.pc + 2 } := by
  rw [exec_eq, wrapRaw_rawEffect_of_pc_only (.jne a) s rfl rfl]
  simp only [jumpTaken_jne_iff, Instr.addr]

/-! ### The run loop, by the outcome of its first step (R147, R148) -/

theorem run_succ_of_fault (n : Nat) (s : State) (f : Fault) (h : step s = .fault f) :
    run (n + 1) s = (.failure f, s) := by
  rw [run_succ, h]

theorem run_succ_of_breakpoint (n : Nat) (s t : State) (h : step s = .next t) (hb : isBreakpoint t = true) :
    run (n + 1) s = (.breakpoint, t) := by
  simp only [run_succ, h, hb, if_true]

theorem run_succ_of_no_breakpoint (n : Nat) (s t : State) (h : step s = .next t) (hb : isBreakpoint t = false) :
    run (n + 1) s = run n t := by
  simp only [run_succ, h, hb, Bool.false_eq_true, if_false]

/-! ### The self-loop (R120, R162) -/

/-- A `JMP p` at `p` changes the count alone. -/
theorem step_self_jump (s : State) (hp : s.pc.toNat % 2 = 0) (hf : fetchWord s = ⟨0x06, s.pc⟩) :
    step s = .next (countCycle s) := by
  rw [step_of_fetch_encode s (.jmp s.pc) hp hf, wrapRaw_rawEffect_jmp]

/-- The next fetch reads neither the count nor the table. -/
theorem fetchWord_countCycle (s : State) : fetchWord (countCycle s) = fetchWord s := rfl

/-- The breakpoint check reads PC and the table alone. -/
theorem isBreakpoint_countCycle (s : State) : isBreakpoint (countCycle s) = isBreakpoint s := rfl

/-- By induction on the budget: the state after each step is again at the self-loop and off every breakpoint. -/
theorem run_self_jump (n : Nat) (s : State) (hp : s.pc.toNat % 2 = 0) (hf : fetchWord s = ⟨0x06, s.pc⟩)
    (hb : isBreakpoint s = false) : run n s = (.budgetExhausted, { s with cycles := s.cycles + n }) := by
  induction n generalizing s with
  | zero => rfl
  | succ n ih =>
    have hfetch : fetchWord (countCycle s) = ⟨0x06, (countCycle s).pc⟩ := (fetchWord_countCycle s).trans hf
    have hoff : isBreakpoint (countCycle s) = false := (isBreakpoint_countCycle s).trans hb
    rw [run_succ_of_no_breakpoint n s (countCycle s) (step_self_jump s hp hf) hoff, ih (countCycle s) hp hfetch hoff,
      countCycle_cycles, Nat.add_assoc, Nat.add_comm 1 n]
    rfl

/-! ### The obligations -/

/-- Settles O23: the jump writes its odd target to PC unchecked, and the run loop looks for a breakpoint there before
the next step finds PC misaligned. -/
theorem oddJumpFaultsNext : Obligations.OddJumpFaultsNext := by
  intro s i hp hd hj hodd
  obtain ⟨t, hstep, hpc⟩ : ∃ t, step s = .next t ∧ t.pc = i.addr := by
    refine ⟨_, step_of_instr s i ((pcMisaligned_eq_false_iff s).2 hp) hd, ?_⟩
    rw [countCycle_pc, wrapRaw_rawEffect_pc, hj, if_pos rfl]
  have hfault : step t = .fault (.alignmentError i.addr) := by
    rw [step_of_misaligned t (by simp [pcMisaligned, hpc, hodd]), hpc]
  refine ⟨t, hstep, hpc, hfault, fun hb n => run_succ_of_breakpoint n s t hstep hb, fun hb n => ?_⟩
  rw [run_succ_of_no_breakpoint (n + 1) s t hstep hb, run_succ_of_fault n t _ hfault]

/-- Settles O33: the one step of the loop changes the count alone, so a breakpoint at its address stops every run after
that step, and without one the loop repeats through the whole budget. -/
theorem selfJumpStopsAtBreakpoint : Obligations.SelfJumpStopsAtBreakpoint := fun s hp hf =>
  ⟨fun hb n => run_succ_of_breakpoint n s (countCycle s) (step_self_jump s hp hf)
      ((isBreakpoint_countCycle s).trans hb),
    fun hb n => run_self_jump n s hp hf hb⟩

/-- Settles O12: the raw target is two below the address, and the advance by 2 makes up for it. -/
theorem jmpReachesTarget : Obligations.JmpReachesTarget := by
  intro a s
  obtain ⟨hlow, hhigh⟩ := rawJumpTarget_range a
  exact ⟨encode_ofOpcode .jmp a, decode_opcode_byte .jmp a, rawEffect_pc (.jmp a) s, hlow, hhigh, exec_jmp a s,
    fun ha => ha ▸ exec_jmp a s, exec_jmp (maskAddress 256) s⟩

/-- Settles O13: the raw PC and the completed one test the same accumulator. -/
theorem jneTestsAccumulator : Obligations.JneTestsAccumulator := by
  intro a s
  refine ⟨encode_ofOpcode .jne a, decode_opcode_byte .jne a, ?_, exec_jne a s⟩
  simp only [rawEffect_pc, jumpTaken_jne_iff, Instr.addr, rawJumpTarget]

end Sys2Proof.Machine
end

section
/-! PROOFS. The execution engine (spec/50_execution_engine.md): which of its three cases a step takes, the run loop as a
sequence of completed steps, and the breakpoint controller. -/

namespace Sys2Proof.Machine

/-! ### One step, by PC's parity and the opcode byte at PC (R141, R142, R144) -/

/-- A word that decodes to Invalid has an opcode byte of 8 or more, which is the byte it reports. -/
theorem opcode_of_decode_invalid (w : InstructionWord) (ob : Byte) (h : decode w = .invalid ob) :
    8 ≤ w.opcode.toNat ∧ ob = w.opcode := by
  by_cases hw : w.opcode.toNat < 8
  · obtain ⟨op, hop⟩ := exists_opcode_byte w.opcode hw
    obtain ⟨a, ha⟩ := (decode_eq_ofOpcode_iff w op).2 hop.symm
    rw [ha] at h
    cases h
  · have hw : 8 ≤ w.opcode.toNat := Nat.le_of_not_lt hw
    rw [decode_of_illegal w hw, Decoded.invalid.injEq] at h
    exact ⟨hw, h.symm⟩

theorem step_of_odd (s : State) (hp : s.pc.toNat % 2 = 1) : step s = .fault (.alignmentError s.pc) :=
  step_of_misaligned s (by simp [pcMisaligned, hp])

theorem step_of_illegal_opcode (s : State) (hp : s.pc.toNat % 2 = 0) (hop : 8 ≤ (s.mem.read s.pc).toNat) :
    step s = .fault (.decodeError s.pc (s.mem.read s.pc)) :=
  step_of_invalid s _ ((pcMisaligned_eq_false_iff s).2 hp) (decode_of_illegal (fetchWord s) hop)

theorem step_of_legal_opcode (s : State) (hp : s.pc.toNat % 2 = 0) (hop : (s.mem.read s.pc).toNat < 8) :
    ∃ t, step s = .next t := by
  cases hd : decode (fetchWord s) with
  | invalid ob => exact absurd (opcode_of_decode_invalid _ ob hd).1 (Nat.not_le_of_lt hop)
  | instr i => exact ⟨_, step_of_instr s i ((pcMisaligned_eq_false_iff s).2 hp) hd⟩

/-- The three cases of a step exclude each other and leave out none. -/
theorem step_cases (s : State) :
    (s.pc.toNat % 2 = 1 ∧ step s = .fault (.alignmentError s.pc)) ∨
    (s.pc.toNat % 2 = 0 ∧ 8 ≤ (s.mem.read s.pc).toNat ∧ step s = .fault (.decodeError s.pc (s.mem.read s.pc))) ∨
    (s.pc.toNat % 2 = 0 ∧ (s.mem.read s.pc).toNat < 8 ∧ ∃ t, step s = .next t) := by
  rcases Nat.mod_two_eq_zero_or_one s.pc.toNat with hp | hp
  · rcases Nat.lt_or_ge (s.mem.read s.pc).toNat 8 with hop | hop
    · exact .inr (.inr ⟨hp, hop, step_of_legal_opcode s hp hop⟩)
    · exact .inr (.inl ⟨hp, hop, step_of_illegal_opcode s hp hop⟩)
  · exact .inl ⟨hp, step_of_odd s hp⟩

theorem step_ne_refused (s : State) (r : Refusal) : step s ≠ .refused r := by
  rcases step_cases s with ⟨-, h⟩ | ⟨-, -, h⟩ | ⟨-, -, t, h⟩ <;> simp [h]

/-- R145: a completed step counts itself. -/
theorem step_cycles (s t : State) (h : step s = .next t) : t.cycles = s.cycles + 1 := by
  obtain ⟨-, i, -, rfl⟩ := step_next_rawEffect s t h
  rfl

/-! ### The sequence of completed steps (R145, R148) -/

@[simp] theorem stepsFrom_zero (s : State) : stepsFrom 0 s = some s := rfl

theorem stepsFrom_succ_of_next (n : Nat) (s u : State) (h : step s = .next u) :
    stepsFrom (n + 1) s = stepsFrom n u := by
  rw [stepsFrom, h]

theorem stepsFrom_succ_of_fault (n : Nat) (s : State) (f : Fault) (h : step s = .fault f) :
    stepsFrom (n + 1) s = none := by
  rw [stepsFrom, h]

theorem stepsFrom_cycles (n : Nat) (s t : State) (h : stepsFrom n s = some t) : t.cycles = s.cycles + n := by
  induction n generalizing s with
  | zero =>
    cases h
    rfl
  | succ n ih =>
    obtain ⟨u, hu, hrest⟩ := (stepsFrom_succ_eq_some_iff n s t).1 h
    rw [ih u hrest, step_cycles s u hu]
    omega

theorem noBreakpointWithin_zero (s : State) : noBreakpointWithin 0 s := fun j _ h1 h0 => by omega

/-- The states that a completed step leads on to are the one it reaches and those that lie beyond it. -/
theorem noBreakpointWithin_succ_of_next (n : Nat) (s u : State) (h : step s = .next u) :
    noBreakpointWithin (n + 1) s ↔ isBreakpoint u = false ∧ noBreakpointWithin n u := by
  constructor
  · intro hs
    refine ⟨hs 1 u (le_refl 1) (by omega) (stepsFrom_succ_of_next 0 s u h), fun j t h1 hj ht => ?_⟩
    exact hs (j + 1) t (by omega) (by omega) ((stepsFrom_succ_of_next j s u h).trans ht)
  · rintro ⟨hu, hlater⟩ j t h1 hj ht
    obtain ⟨i, rfl⟩ : ∃ i, j = i + 1 := ⟨j - 1, by omega⟩
    rw [stepsFrom_succ_of_next i s u h] at ht
    cases i with
    | zero =>
      cases ht
      exact hu
    | succ i => exact hlater (i + 1) t (by omega) (by omega) ht

/-! ### The run loop, told by its completed steps (R147) -/

/-- What the first step of a run can lead to. -/
theorem step_isBreakpoint_cases (s : State) :
    (∃ f, step s = .fault f) ∨ (∃ u, step s = .next u ∧ isBreakpoint u = true) ∨
      ∃ u, step s = .next u ∧ isBreakpoint u = false := by
  rcases step_cases s with ⟨-, h⟩ | ⟨-, -, h⟩ | ⟨-, -, u, h⟩
  · exact .inl ⟨_, h⟩
  · exact .inl ⟨_, h⟩
  · cases hb : isBreakpoint u with
    | true => exact .inr (.inl ⟨u, h, hb⟩)
    | false => exact .inr (.inr ⟨u, h, hb⟩)

theorem run_eq_budgetExhausted_iff (n : Nat) (s t : State) :
    run n s = (.budgetExhausted, t) ↔ stepsFrom n s = some t ∧ noBreakpointWithin n s := by
  induction n generalizing s with
  | zero => simp [run, noBreakpointWithin_zero]
  | succ n ih =>
    rcases step_isBreakpoint_cases s with ⟨f, h⟩ | ⟨u, h, hb⟩ | ⟨u, h, hb⟩
    · simp [run_succ_of_fault n s f h, stepsFrom_succ_of_fault n s f h]
    · simp [run_succ_of_breakpoint n s u h hb, noBreakpointWithin_succ_of_next n s u h, hb]
    · simp [run_succ_of_no_breakpoint n s u h hb, ih u, stepsFrom_succ_of_next n s u h,
        noBreakpointWithin_succ_of_next n s u h, hb]

theorem run_eq_breakpoint_iff (n : Nat) (s t : State) :
    run n s = (.breakpoint, t) ↔
      ∃ k, k < n ∧ stepsFrom (k + 1) s = some t ∧ isBreakpoint t = true ∧ noBreakpointWithin k s := by
  induction n generalizing s with
  | zero => simp [run]
  | succ n ih =>
    rcases step_isBreakpoint_cases s with ⟨f, h⟩ | ⟨u, h, hb⟩ | ⟨u, h, hb⟩
    · simp [run_succ_of_fault n s f h, stepsFrom_succ_of_fault _ s f h]
    · rw [Nat.exists_lt_succ_left]
      have hfirst : u = t ↔ u = t ∧ isBreakpoint t = true := ⟨fun he => ⟨he, he ▸ hb⟩, And.left⟩
      simpa [run_succ_of_breakpoint n s u h hb, stepsFrom_succ_of_next _ s u h, noBreakpointWithin_zero,
        noBreakpointWithin_succ_of_next _ s u h, hb] using hfirst
    · have hfirst : ¬ (stepsFrom (0 + 1) s = some t ∧ isBreakpoint t = true ∧ noBreakpointWithin 0 s) := by
        rw [stepsFrom_succ_of_next 0 s u h]
        rintro ⟨⟨⟩, ht, -⟩
        exact Bool.false_ne_true (hb.symm.trans ht)
      rw [Nat.exists_lt_succ_left, or_iff_right hfirst, run_succ_of_no_breakpoint n s u h hb, ih u]
      simp [stepsFrom_succ_of_next _ s u h, noBreakpointWithin_succ_of_next _ s u h, hb]

theorem run_eq_failure_iff (n : Nat) (s t : State) (f : Fault) :
    run n s = (.failure f, t) ↔
      ∃ k, k < n ∧ stepsFrom k s = some t ∧ step t = .fault f ∧ noBreakpointWithin k s := by
  induction n generalizing s with
  | zero => simp [run]
  | succ n ih =>
    rw [Nat.exists_lt_succ_left]
    rcases step_isBreakpoint_cases s with ⟨g, h⟩ | ⟨u, h, hb⟩ | ⟨u, h, hb⟩
    · have hfirst : g = f ∧ s = t ↔ s = t ∧ step t = .fault f :=
        ⟨fun ⟨hg, hs⟩ => ⟨hs, hs ▸ hg ▸ h⟩, fun ⟨hs, ht⟩ => ⟨by simpa [← hs, h] using ht, hs⟩⟩
      simpa [run_succ_of_fault n s g h, stepsFrom_succ_of_fault _ s g h, noBreakpointWithin_zero] using hfirst
    all_goals
      have hfirst : ¬ (stepsFrom 0 s = some t ∧ step t = .fault f ∧ noBreakpointWithin 0 s) := by
        rintro ⟨⟨⟩, ht, -⟩
        cases h.symm.trans ht
      rw [or_iff_right hfirst]
    · simp [run_succ_of_breakpoint n s u h hb, noBreakpointWithin_succ_of_next _ s u h, hb]
    · rw [run_succ_of_no_breakpoint n s u h hb, ih u]
      simp [stepsFrom_succ_of_next _ s u h, noBreakpointWithin_succ_of_next _ s u h, hb]

theorem run_ne_refused (n : Nat) (s t : State) (r : Refusal) : run n s ≠ (.refused r, t) := by
  induction n generalizing s with
  | zero => simp [run]
  | succ n ih =>
    rcases step_isBreakpoint_cases s with ⟨f, h⟩ | ⟨u, h, hb⟩ | ⟨u, h, hb⟩
    · simp [run_succ_of_fault n s f h]
    · simp [run_succ_of_breakpoint n s u h hb]
    · rw [run_succ_of_no_breakpoint n s u h hb]
      exact ih u

/-- A breakpoint stop and an exhausted budget are told apart by the state alone, a zero budget aside. -/
theorem isBreakpoint_of_run_breakpoint (n : Nat) (s t : State) (h : run n s = (.breakpoint, t)) :
    isBreakpoint t = true := by
  obtain ⟨k, -, -, hb, -⟩ := (run_eq_breakpoint_iff n s t).1 h
  exact hb

theorem not_isBreakpoint_of_run_budgetExhausted (n : Nat) (s t : State) (hn : 1 ≤ n)
    (h : run n s = (.budgetExhausted, t)) : isBreakpoint t = false := by
  obtain ⟨hsteps, hoff⟩ := (run_eq_budgetExhausted_iff n s t).1 h
  exact hoff n t hn (le_refl n) hsteps

/-! ### What a run sees of the table and of the count (R151, R152, R163) -/

theorem isBreakpoint_iff (s : State) : isBreakpoint s = true ↔ ∃ e ∈ s.bpt, e.address = s.pc := by
  simp [isBreakpoint]

theorem ok_iff (o : RunOutcome) : o.ok = true ↔ o = .breakpoint ∨ o = .budgetExhausted := by
  cases o <;> simp [RunOutcome.ok]

/-- The check reads PC and the addresses in the table, nothing else. -/
theorem isBreakpoint_congr (s u : State) (hpc : u.pc = s.pc)
    (h : ∀ a : Addr, (∃ e ∈ s.bpt, e.address = a) ↔ ∃ e ∈ u.bpt, e.address = a) :
    isBreakpoint u = isBreakpoint s := by
  rw [Bool.eq_iff_iff, isBreakpoint_iff, isBreakpoint_iff, hpc]
  exact (h s.pc).symm

/-- By induction on the budget: with another count and a table of the same addresses a run goes through the same steps,
and its count rises by as much. -/
theorem run_with_bookkeeping (n : Nat) (s : State) (c : Nat) (b : List Breakpoint)
    (hb : ∀ a : Addr, (∃ e ∈ s.bpt, e.address = a) ↔ ∃ e ∈ b, e.address = a) :
    ∃ d, run n { s with cycles := c, bpt := b } = ((run n s).1, { (run n s).2 with cycles := d, bpt := b }) ∧
      (run n s).2.cycles + c = d + s.cycles := by
  induction n generalizing s c with
  | zero => exact ⟨c, rfl, Nat.add_comm s.cycles c⟩
  | succ n ih =>
    obtain ⟨hnext, hfault⟩ := stepIgnoresBookkeeping s c b
    rcases step_isBreakpoint_cases s with ⟨f, h⟩ | ⟨u, h, hu⟩ | ⟨u, h, hu⟩
    · rw [run_succ_of_fault n s f h, run_succ_of_fault n _ f (hfault f h)]
      exact ⟨c, rfl, Nat.add_comm s.cycles c⟩
    all_goals
      have hcycles : u.cycles = s.cycles + 1 := step_cycles s u h
      have haddresses : ∀ a : Addr, (∃ e ∈ u.bpt, e.address = a) ↔ ∃ e ∈ b, e.address = a := by rwa [step_bpt s u h]
      have hcheck : isBreakpoint { u with cycles := c + 1, bpt := b } = isBreakpoint u :=
        isBreakpoint_congr u _ rfl haddresses
    · rw [run_succ_of_breakpoint n s u h hu, run_succ_of_breakpoint n _ _ (hnext u h) (hcheck.trans hu)]
      exact ⟨c + 1, rfl, by simp only; omega⟩
    · rw [run_succ_of_no_breakpoint n s u h hu, run_succ_of_no_breakpoint n _ _ (hnext u h) (hcheck.trans hu)]
      obtain ⟨d, hrun, hd⟩ := ih u (c + 1) haddresses
      exact ⟨d, hrun, by omega⟩

/-! ### Entries and their masked addresses (R153, R26) -/

theorem toNat_maskAddress (n : Nat) : (maskAddress n).toNat = n % 256 := BitVec.toNat_ofNat n 8

theorem eq_maskAddress_iff (a : Addr) (n : Nat) : a = maskAddress n ↔ a.toNat = n % 256 := by
  rw [← toNat_maskAddress, BitVec.toNat_inj]

theorem eq_entryOf_iff (d : Breakpoint) (n : Nat) (name : Text) :
    d = entryOf n name ↔ d.address.toNat = n % 256 ∧ d.name = name := by
  rw [← eq_maskAddress_iff, entryOf]
  cases d
  simp

theorem conflicts_entryOf_iff (t : List Breakpoint) (n : Nat) (name : Text) :
    conflicts t (entryOf n name) = true ↔ ∃ d ∈ t, d.address.toNat = n % 256 ∨ d.name = name := by
  simp only [conflicts_iff, entryOf, eq_maskAddress_iff]

theorem conflicts_entryOf_eq_false (t : List Breakpoint) (n : Nat) (name : Text)
    (h : ∀ d ∈ t, d.address.toNat ≠ n % 256 ∧ d.name ≠ name) : conflicts t (entryOf n name) = false := by
  rw [Bool.eq_false_iff, Ne, conflicts_entryOf_iff]
  rintro ⟨d, hd, ha | hn⟩
  · exact (h d hd).1 ha
  · exact (h d hd).2 hn

/-- R26 (i): in a legal table an address belongs to one entry. -/
theorem eq_of_address_eq (t : List Breakpoint) (ht : bptWf t) (d e : Breakpoint) (hd : d ∈ t) (he : e ∈ t)
    (h : d.address = e.address) : d = e :=
  List.inj_on_of_nodup_map (bptWf_addresses_nodup t ht) hd he h

/-- R26 (ii): in a legal table a name belongs to one entry. -/
theorem eq_of_name_eq (t : List Breakpoint) (ht : bptWf t) (d e : Breakpoint) (hd : d ∈ t) (he : e ∈ t)
    (h : d.name = e.name) : d = e :=
  List.inj_on_of_nodup_map ht.2.1 hd he h

/-- The entry of a legal table that a masked address stands for. -/
theorem address_toNat_eq_iff (t : List Breakpoint) (ht : bptWf t) (d e : Breakpoint) (hd : d ∈ t) (he : e ∈ t) (n : Nat)
    (hn : e.address.toNat = n % 256) : d.address.toNat = n % 256 ↔ d = e :=
  ⟨fun h => eq_of_address_eq t ht d e hd he (BitVec.eq_of_toNat_eq (h.trans hn.symm)), fun h => h ▸ hn⟩

/-- The entry of a legal table that a name stands for. -/
theorem name_eq_iff (t : List Breakpoint) (ht : bptWf t) (d e : Breakpoint) (hd : d ∈ t) (he : e ∈ t) (name : Text)
    (hn : e.name = name) : d.name = name ↔ d = e :=
  ⟨fun h => eq_of_name_eq t ht d e hd he (h.trans hn.symm), fun h => h ▸ hn⟩

/-! ### Insert (R153, R154) -/

theorem command_insert_of_ok (draw n : Nat) (name : Text) (s : State) (t : List Breakpoint)
    (h : insertEntry s.bpt (entryOf n name) = .ok t) :
    command draw (.insert n name) s = (.ok, s.withBpt t) := by
  simp only [command, insertBreakpoint, h, commit]

theorem command_insert_of_error (draw n : Nat) (name : Text) (s : State) (f : CommandFailure)
    (h : insertEntry s.bpt (entryOf n name) = .error f) : command draw (.insert n name) s = (.failed f, s) := by
  simp only [command, insertBreakpoint, h, commit]

theorem insertEntry_of_conflict (t : List Breakpoint) (e : Breakpoint) (hc : conflicts t e = true) :
    insertEntry t e = .error .breakpointConflict := by
  rw [insertEntry, if_pos hc]

theorem insertEntry_of_full (t : List Breakpoint) (e : Breakpoint) (hc : conflicts t e = false)
    (hfull : Config.bpCapacity ≤ t.length) : insertEntry t e = .error .breakpointFull := by
  rw [insertEntry, if_neg (by simp [hc]), if_pos hfull]

theorem exists_error_iff (x : Except CommandFailure (List Breakpoint)) : (∃ f, x = .error f) ↔ ∀ u, x ≠ .ok u := by
  cases x <;> simp

/-! ### The finds (R155, R156) -/

/-- Where at most one element passes the test, `find?` returns exactly that one. -/
theorem find?_eq_some_iff_of_unique (t : List Breakpoint) (p : Breakpoint → Bool) (e : Breakpoint)
    (hunique : ∀ d ∈ t, ∀ e ∈ t, p d = true → p e = true → d = e) : t.find? p = some e ↔ e ∈ t ∧ p e = true := by
  refine ⟨fun h => ⟨List.mem_of_find?_eq_some h, List.find?_some h⟩, fun ⟨he, hpe⟩ => ?_⟩
  cases hfind : t.find? p with
  | none => exact absurd hpe (List.find?_eq_none.1 hfind e he)
  | some d => rw [hunique d (List.mem_of_find?_eq_some hfind) e he (List.find?_some hfind) hpe]

theorem findByAddress_eq_some_iff (n : Nat) (s : State) (hs : s.wf) (e : Breakpoint) :
    findByAddress n s = some e ↔ e ∈ s.bpt ∧ e.address.toNat = n % 256 := by
  rw [findByAddress, find?_eq_some_iff_of_unique, decide_eq_true_iff, eq_maskAddress_iff]
  intro d hd e he hdn hen
  exact eq_of_address_eq s.bpt hs.2 d e hd he ((of_decide_eq_true hdn).trans (of_decide_eq_true hen).symm)

theorem findByName_eq_some_iff (name : Text) (s : State) (hs : s.wf) (e : Breakpoint) :
    findByName name s = some e ↔ e ∈ s.bpt ∧ e.name = name := by
  rw [findByName, find?_eq_some_iff_of_unique, decide_eq_true_iff]
  intro d hd e he hdn hen
  exact eq_of_name_eq s.bpt hs.2 d e hd he ((of_decide_eq_true hdn).trans (of_decide_eq_true hen).symm)

theorem findByAddress_eq_none_iff (n : Nat) (s : State) :
    findByAddress n s = none ↔ ∀ e ∈ s.bpt, e.address.toNat ≠ n % 256 := by
  simp only [findByAddress, List.find?_eq_none, decide_eq_true_iff, eq_maskAddress_iff, ne_eq]

theorem findByName_eq_none_iff (name : Text) (s : State) : findByName name s = none ↔ ∀ e ∈ s.bpt, e.name ≠ name := by
  simp only [findByName, List.find?_eq_none, decide_eq_true_iff, ne_eq]

/-! ### The deletes (R157, R158) -/

/-- In a legal table, leaving out an address erases its one entry. -/
theorem filter_address_ne_eq_erase (t : List Breakpoint) (ht : bptWf t) (e : Breakpoint) (he : e ∈ t) :
    (t.filter fun d => decide (d.address ≠ e.address)) = t.erase e := by
  rw [(bptWf_addresses_nodup t ht).of_map.erase_eq_filter]
  refine List.filter_congr fun d hd => ?_
  have heq : d.address = e.address ↔ d = e := ⟨eq_of_address_eq t ht d e hd he, congrArg Breakpoint.address⟩
  simp [heq, bne, beq_eq_decide]

/-- Where the address has an entry, the delete erases that entry. -/
theorem deleteByAddress_of_mem (n : Nat) (s : State) (hs : s.wf) (e : Breakpoint) (he : e ∈ s.bpt)
    (hn : e.address.toNat = n % 256) : deleteByAddress n s = .ok (s.withBpt (s.bpt.erase e)) := by
  simp only [deleteByAddress, (findByAddress_eq_some_iff n s hs e).2 ⟨he, hn⟩,
    filter_address_ne_eq_erase s.bpt hs.2 e he]

theorem deleteByAddress_of_not_mem (n : Nat) (s : State) (h : ∀ e ∈ s.bpt, e.address.toNat ≠ n % 256) :
    deleteByAddress n s = .error .notFound := by
  rw [deleteByAddress, (findByAddress_eq_none_iff n s).2 h]

theorem toNat_eq_toNat_mod (a : Addr) : a.toNat = a.toNat % 256 := (Nat.mod_eq_of_lt a.isLt).symm

/-- Where the name has an entry, the delete erases that entry. -/
theorem deleteByName_of_mem (name : Text) (s : State) (hs : s.wf) (e : Breakpoint) (he : e ∈ s.bpt)
    (hn : e.name = name) : deleteByName name s = .ok (s.withBpt (s.bpt.erase e)) := by
  rw [deleteByName, (findByName_eq_some_iff name s hs e).2 ⟨he, hn⟩]
  exact deleteByAddress_of_mem e.address.toNat s hs e he (toNat_eq_toNat_mod e.address)

theorem deleteByName_of_not_mem (name : Text) (s : State) (h : ∀ e ∈ s.bpt, e.name ≠ name) :
    deleteByName name s = .error .notFound := by
  rw [deleteByName, (findByName_eq_none_iff name s).2 h]

theorem mem_erase_iff_of_wf (t : List Breakpoint) (ht : bptWf t) (d e : Breakpoint) :
    d ∈ t.erase e ↔ d ∈ t ∧ d ≠ e := by
  rw [(bptWf_addresses_nodup t ht).of_map.mem_erase_iff, and_comm]

theorem erase_wf (s : State) (hs : s.wf) (e : Breakpoint) (he : e ∈ s.bpt) : (s.withBpt (s.bpt.erase e)).wf :=
  deleteByAddress_wf _ s _ hs (deleteByAddress_of_mem _ s hs e he (toNat_eq_toNat_mod e.address))

/-! ### The obligations -/

/-- Settles O28: each outcome by induction on the budget, along the first step. -/
theorem runLoopRefinesSteps : Obligations.RunLoopRefinesSteps := fun n s t =>
  ⟨run_eq_budgetExhausted_iff n s t, run_eq_breakpoint_iff n s t, run_eq_failure_iff n s t,
    run_ne_refused n s t, fun _ => rfl⟩

/-- Settles O18: in each of the three cases of a step, the conditions of the other two fail. -/
theorem stepFaultsExactly : Obligations.StepFaultsExactly := by
  intro s
  refine ⟨fun f => ?_, step_ne_refused s, ?_, fun t h => ⟨step_cycles s t h, step_bpt s t h⟩⟩
  · rcases step_cases s with ⟨hp, h⟩ | ⟨hp, hop, h⟩ | ⟨hp, hop, t, h⟩
    · simp [h, hp, eq_comm]
    · simp [h, hp, hop, eq_comm]
    · simp [h, hp, hop]
  · rcases step_cases s with ⟨hp, h⟩ | ⟨hp, hop, h⟩ | ⟨hp, hop, t, h⟩
    · simp [h, hp]
    · simp [h, hp, hop]
    · simp [h, hp, hop]

/-- Settles O29: the steps that each outcome stands for, and one cycle for each of them. -/
theorem runCountsCompletedSteps : Obligations.RunCountsCompletedSteps := by
  intro n s
  rcases hrun : run n s with ⟨o, t⟩
  cases o with
  | budgetExhausted =>
    obtain ⟨hsteps, -⟩ := (run_eq_budgetExhausted_iff n s t).1 hrun
    exact ⟨n, le_refl n, hsteps, stepsFrom_cycles n s t hsteps, fun _ => rfl, nofun, nofun⟩
  | breakpoint =>
    obtain ⟨k, hk, hsteps, -, -⟩ := (run_eq_breakpoint_iff n s t).1 hrun
    exact ⟨k + 1, hk, hsteps, stepsFrom_cycles (k + 1) s t hsteps, nofun, fun _ => k.succ_pos, nofun⟩
  | failure f =>
    obtain ⟨k, hk, hsteps, -, -⟩ := (run_eq_failure_iff n s t f).1 hrun
    exact ⟨k, hk.le, hsteps, stepsFrom_cycles k s t hsteps, nofun, nofun, fun _ _ => hk⟩
  | refused r => exact absurd hrun (run_ne_refused n s t r)

/-- Settles O30: the run stopped where the next step faults, and that step depends on the state alone. -/
theorem failedRunStaysFailed : Obligations.FailedRunStaysFailed := by
  intro n s t f hrun
  obtain ⟨k, -, -, hfault, -⟩ := (run_eq_failure_iff n s t f).1 hrun
  refine ⟨fun m => run_succ_of_fault m t f hfault, ?_⟩
  rcases ((stepFaultsExactly t).1 f).1 hfault with ⟨-, hf⟩ | ⟨-, -, hf⟩
  · exact .inl hf
  · exact .inr hf

/-- Settles O31, by induction on the first budget: the loop looks at its budget only after a step off every
breakpoint. -/
theorem largerBudgetContinues : Obligations.LargerBudgetContinues := by
  intro n m s t o hrun
  induction n generalizing s with
  | zero =>
    cases hrun
    rw [Nat.zero_add]
    exact ⟨fun _ => rfl, fun h => absurd rfl h⟩
  | succ n ih =>
    rw [Nat.succ_add]
    rcases step_isBreakpoint_cases s with ⟨f, h⟩ | ⟨u, h, hb⟩ | ⟨u, h, hb⟩
    · rw [run_succ_of_fault n s f h] at hrun
      cases hrun
      exact ⟨nofun, fun _ => run_succ_of_fault _ _ f h⟩
    · rw [run_succ_of_breakpoint n s u h hb] at hrun
      cases hrun
      exact ⟨nofun, fun _ => run_succ_of_breakpoint _ s _ h hb⟩
    · rw [run_succ_of_no_breakpoint n s u h hb] at hrun
      rw [run_succ_of_no_breakpoint (n + m) s u h hb]
      exact ih u hrun

/-- Settles O35: the outcomes' own cases, and the state that each of the two successes stops at. -/
theorem queryTellsOutcomesApart : Obligations.QueryTellsOutcomesApart :=
  ⟨ok_iff, fun _ => ⟨rfl, rfl, rfl⟩, isBreakpoint_iff, fun _ _ => rfl, fun n s =>
    ⟨fun h => isBreakpoint_of_run_breakpoint n s _ (Prod.ext h rfl),
      fun hn h => not_isBreakpoint_of_run_budgetExhausted n s _ hn (Prod.ext h rfl)⟩⟩

/-- Settles O36: the second state is the first with another count and another table. -/
theorem runSeesBreakpointAddressesOnly : Obligations.RunSeesBreakpointAddressesOnly := by
  intro n s u hacc hpc hmem haddresses
  have hu : u = { s with cycles := u.cycles, bpt := u.bpt } :=
    State.eq_of_fields _ _ hacc.symm hpc.symm hmem.symm rfl rfl
  obtain ⟨d, hrun, hd⟩ := run_with_bookkeeping n s u.cycles u.bpt haddresses
  rw [← hu] at hrun
  rw [hrun]
  exact ⟨rfl, rfl, rfl, rfl, hd⟩

/-- Settles O37: no completed step touches the table. -/
theorem runKeepsBreakpoints : Obligations.RunKeepsBreakpoints := run_bpt

/-- Settles O39: the three branches of the insert, the conflict test before the capacity test. -/
theorem insertOutcome : Obligations.InsertOutcome := by
  refine ⟨rfl, fun draw n name s => ⟨fun h => ?_, fun h hfull => ?_, fun h hroom => ?_⟩⟩
  · have hc := (conflicts_entryOf_iff s.bpt n name).2 h
    exact command_insert_of_error draw n name s _ (insertEntry_of_conflict _ _ hc)
  · have hc := conflicts_entryOf_eq_false s.bpt n name h
    exact command_insert_of_error draw n name s _ (insertEntry_of_full _ _ hc hfull)
  · have hc := conflicts_entryOf_eq_false s.bpt n name h
    have hok := (insertEntry_ok s.bpt _ (entryOf n name)).2 ⟨hc, hroom, rfl⟩
    refine ⟨_, command_insert_of_ok draw n name s _ hok, length_placeEntry _ _, fun d => ?_⟩
    rw [mem_placeEntry, eq_entryOf_iff, or_comm]

/-- Settles O40: the invariants leave at most one entry to find. -/
theorem findsAreExact : Obligations.FindsAreExact := fun _ n name s hs =>
  ⟨findByAddress_eq_some_iff n s hs, findByAddress_eq_none_iff n s, findByName_eq_some_iff name s hs,
    findByName_eq_none_iff name s, rfl, rfl⟩

/-- Settles O41: a delete that finds its entry erases it, and no other entry has its address or its name. -/
theorem deleteOutcome : Obligations.DeleteOutcome := by
  intro draw n name s hs
  refine ⟨fun ⟨e, he, hn⟩ => ?_, fun h => ?_, fun ⟨e, he, hn⟩ => ?_, fun h => ?_⟩
  · refine ⟨s.bpt.erase e, ?_, List.length_erase_add_one he, fun d => ?_⟩
    · rw [command, deleteByAddress_of_mem n s hs e he hn]
      rfl
    · rw [mem_erase_iff_of_wf s.bpt hs.2]
      exact and_congr_right fun hd => not_congr (address_toNat_eq_iff s.bpt hs.2 d e hd he n hn).symm
  · rw [command, deleteByAddress_of_not_mem n s h, commit]
  · refine ⟨s.bpt.erase e, ?_, List.length_erase_add_one he, fun d => ?_⟩
    · rw [command, deleteByName_of_mem name s hs e he hn]
      rfl
    · rw [mem_erase_iff_of_wf s.bpt hs.2]
      exact and_congr_right fun hd => not_congr (name_eq_iff s.bpt hs.2 d e hd he name hn).symm
  · rw [command, deleteByName_of_not_mem name s h, commit]

/-- Settles O42: both deletes erase the entry, and the finds in the table without it are exact. -/
theorem deletionKeepsOthersFindable : Obligations.DeletionKeepsOthersFindable := by
  intro s t e hs he hdelete
  have hmod : ∀ d : Breakpoint, d.address.toNat = d.address.toNat % 256 := fun d => toNat_eq_toNat_mod d.address
  obtain rfl : t = s.withBpt (s.bpt.erase e) := by
    rw [deleteByAddress_of_mem _ s hs e he (hmod e), deleteByName_of_mem e.name s hs e he rfl, or_self,
      Except.ok.injEq] at hdelete
    exact hdelete.symm
  have hwf : (s.withBpt (s.bpt.erase e)).wf := erase_wf s hs e he
  have hleft : ∀ d, d ∈ (s.withBpt (s.bpt.erase e)).bpt ↔ d ∈ s.bpt ∧ d ≠ e := fun d =>
    mem_erase_iff_of_wf s.bpt hs.2 d e
  refine ⟨(findByAddress_eq_none_iff _ _).2 fun d hd ha => ?_, (findByName_eq_none_iff _ _).2 fun d hd hn => ?_,
    fun d hd hne => ⟨?_, ?_⟩⟩
  · obtain ⟨hd, hne⟩ := (hleft d).1 hd
    exact hne ((address_toNat_eq_iff s.bpt hs.2 d e hd he _ (hmod e)).1 ha)
  · obtain ⟨hd, hne⟩ := (hleft d).1 hd
    exact hne ((name_eq_iff s.bpt hs.2 d e hd he _ rfl).1 hn)
  · exact (findByAddress_eq_some_iff _ _ hwf d).2 ⟨(hleft d).2 ⟨hd, hne⟩, hmod d⟩
  · exact (findByName_eq_some_iff _ _ hwf d).2 ⟨(hleft d).2 ⟨hd, hne⟩, rfl⟩

/-- Settles O43: a completed insertion of entries is told by the set of the old and the new ones alone. -/
theorem insertOrderUnobservable : Obligations.InsertOrderUnobservable := by
  intro t es es' ht hperm
  have hnew : (t ++ es.map fun e => entryOf e.1 e.2).Perm (t ++ es'.map fun e => entryOf e.1 e.2) :=
    (hperm.map _).append_left t
  have hok : ∀ u, insertAll t es = .ok u ↔ insertAll t es' = .ok u := fun u => by
    rw [insertAll_ok_iff es t u ht, insertAll_ok_iff es' t u ht]
    exact and_congr_right fun _ => ⟨fun h => h.trans hnew, fun h => h.trans hnew.symm⟩
  exact ⟨hok, by simp only [exists_error_iff, ne_eq, hok]⟩

/-- Settles O17: the fetched word is the two bytes, and the effect of the decoded instruction is counted. -/
theorem stepRunsDecodedInstruction : Obligations.StepRunsDecodedInstruction := by
  intro s
  refine ⟨step_of_odd s, fun hp ob hd => ?_, fun hp i hd => ?_⟩
  · exact step_of_illegal_opcode s hp (opcode_of_decode_invalid _ ob hd).1
  · exact ⟨_, exec_eq i s, step_of_instr s i ((pcMisaligned_eq_false_iff s).2 hp) hd⟩

/-- Settles O27: the loop with no budget does not reach its body. -/
theorem runZeroDoesNothing : Obligations.RunZeroDoesNothing := fun _ => ⟨rfl, rfl, fun _ => rfl⟩

/-- Settles O32: the first step decides, and the budget left after it is 0. -/
theorem singleStepRun : Obligations.SingleStepRun := by
  intro s
  refine ⟨fun t h => ?_, fun f => run_succ_of_fault 0 s f⟩
  cases hb : isBreakpoint t with
  | true => exact run_succ_of_breakpoint 0 s t h hb
  | false => exact run_succ_of_no_breakpoint 0 s t h hb
end Sys2Proof.Machine
end

section
/-! PROOFS. Exceptions (spec/60_exceptions.md): the codes of the failures, a failed command leaves the state as it was, and
blocks share no state. -/

namespace Sys2Proof.Machine

/-! ### Failed commands (R187, R225) -/

/-- Where a commit answers a failure it has kept the old state. -/
theorem commit_state_of_failed (r : Except CommandFailure State) (s : State) (f : CommandFailure)
    (h : (commit r s).1 = .failed f) : (commit r s).2 = s := by
  cases r with
  | ok t => cases h
  | error g => rfl

/-- The registry's commands and a load commit; a save never writes the state; no other command answers a failure. -/
theorem command_state_of_failed (draw : Nat) (c : Command) (s : State) (f : CommandFailure)
    (h : (command draw c s).1 = .failed f) : (command draw c s).2 = s := by
  cases c with
  | insert _ _ | deleteByAddress _ | deleteByName _ | loadState _ => exact commit_state_of_failed _ s f h
  | saveState writable => exact saveCommand_state draw writable s
  | run _ => cases h
  | execute i =>
    rw [command, executeDirect_eq] at h
    cases h
  | isBreakpoint | findByAddress _ | findByName _ | count | readAcc | readPc | readCycles | readMem _
  | printProgram | make _ _ | decode _ _ | applyRawEffect _ => rfl

/-! ### Commands to the blocks, where the block exists (R191, R202, R231) -/

/-- A copy writes the source's state at its destination and draws no free value. -/
theorem blocksCommand_copy (b : Blocks) (src : Nat) (dst : Option Nat) (s : State) (k : Nat) (bs : List State)
    (hsrc : b.blocks[src]? = some s) (hput : putBlock b.blocks dst s = some (k, bs)) :
    blocksCommand (.copy src dst) b = some (.block k, ⟨bs, b.draws⟩) := by
  simp only [blocksCommand, hsrc, hput]

/-- A command to one block answers as the command does and replaces that block by the command's state. -/
theorem blocksCommand_onBlock (b : Blocks) (j : Nat) (c : Command) (s : State) (hj : b.blocks[j]? = some s) :
    blocksCommand (.onBlock j c) b =
      some (.response (command b.draws c s).1, ⟨b.blocks.set j (command b.draws c s).2, b.draws + 1⟩) := by
  simp only [blocksCommand, hj]

/-! ### The obligations -/

/-- Settles O54: a copy writes one block (`putBlock_spec`), and a command replaces its own. -/
theorem copyIsIndependent : Obligations.CopyIsIndependent := by
  refine ⟨fun b src s hsrc => ⟨?_, fun k hk => ?_⟩, fun b j c s hj => ?_⟩
  · have hput := putBlock_new b.blocks s
    obtain ⟨hnew, hothers, -⟩ := putBlock_spec _ _ _ _ _ hput
    exact ⟨_, blocksCommand_copy b src none s _ _ hsrc hput, hnew, fun j hj => hothers j hj.ne⟩
  · have hput := putBlock_existing b.blocks k s hk
    obtain ⟨hdst, hothers, -⟩ := putBlock_spec _ _ _ _ _ hput
    exact ⟨_, blocksCommand_copy b src (some k) s _ _ hsrc hput, List.length_set, hdst, hothers⟩
  · obtain ⟨hlt, -⟩ := List.getElem?_eq_some_iff.1 hj
    exact ⟨b.draws, _, blocksCommand_onBlock b j c s hj, List.getElem?_set_self hlt,
      fun k hk => List.getElem?_set_ne hk.symm⟩

/-- Settles O45: per command, by whether it commits, saves or cannot fail. -/
theorem failedCommandsChangeNothing : Obligations.FailedCommandsChangeNothing := command_state_of_failed

/-- Settles O57: R180's table, one code per constructor. -/
theorem failureCodes : Obligations.FailureCodes :=
  ⟨fun _ _ => rfl, fun _ => rfl, rfl, rfl, rfl, rfl⟩

end Sys2Proof.Machine
end

section
/-! PROOFS. Reset and hazards (spec/70_reset_and_hazards.md): the reset values, a run over all-zero memory, runs of
software that meets its obligations, and whole-state replacement by a move. -/

namespace Sys2Proof.Machine

/-! ### Software that meets its obligations (R207) -/

/-- R207's condition on one state, told by PC and the opcode byte there. -/
theorem readyToStep_iff (s : State) :
    readyToStep s = true ↔ s.pc.toNat % 2 = 0 ∧ (s.mem.read s.pc).toNat < 8 := by
  rw [readyToStep, Bool.and_eq_true, Bool.not_eq_true', pcMisaligned_eq_false_iff, InstructionWord.wellFormed,
    decide_eq_true_iff, fetchWord_eq, Config.numOpcodes]

/-- R181, R182: the two faults are the two breaches of R207's condition. -/
theorem step_ne_fault_of_ready (s : State) (f : Fault) (h : readyToStep s = true) : step s ≠ .fault f := by
  obtain ⟨hp, hop⟩ := (readyToStep_iff s).1 h
  obtain ⟨t, ht⟩ := step_of_legal_opcode s hp hop
  simp [ht]

/-- The state at which a run would fail is one that the completed steps reach before the last. -/
theorem run_ne_failure_of_meetsObligations (n : Nat) (s : State) (f : Fault) (h : meetsObligations n s) :
    (run n s).1 ≠ .failure f := by
  intro hrun
  obtain ⟨k, hk, hsteps, hfault, -⟩ := (run_eq_failure_iff n s (run n s).2 f).1 (Prod.ext hrun rfl)
  exact step_ne_fault_of_ready _ f (h k _ hk hsteps) hfault

/-- A run that does not fail ends in one of R149's two successes. -/
theorem run_success_of_ne_failure (n : Nat) (s : State) (h : ∀ f, (run n s).1 ≠ .failure f) :
    (run n s).1 = .breakpoint ∨ (run n s).1 = .budgetExhausted := by
  cases ho : (run n s).1 with
  | breakpoint => exact .inl rfl
  | budgetExhausted => exact .inr rfl
  | failure f => exact absurd ho (h f)
  | refused r => exact (run_ne_refused n s _ r (Prod.ext ho rfl)).elim

/-! ### All-zero memory (R203) -/

/-- The word 0x0000 is `ADD 0` (R64). -/
theorem fetchWord_of_zero_memory (s : State) (hm : ∀ a : Addr, s.mem.read a = 0) : fetchWord s = encode (.add 0) := by
  rw [fetchWord_eq, hm, hm]
  rfl

/-- R80: adding a cell that holds 0 leaves the accumulator alone. -/
theorem exec_add_of_zero_cell (a : Addr) (s : State) (h : s.mem.read a = 0) :
    exec (.add a) s = .next { s with pc := s.pc + 2 } :=
  exec_of_raw_acc_byte (.add a) s s.acc rfl rfl (by simp [rawEffect_add_acc, h])

theorem step_of_zero_memory (s : State) (hp : s.pc.toNat % 2 = 0) (hm : ∀ a : Addr, s.mem.read a = 0) :
    step s = .next { s with pc := s.pc + 2, cycles := s.cycles + 1 } := by
  rw [step_of_fetch_encode s (.add 0) hp (fetchWord_of_zero_memory s hm),
    ← (exec_next_iff (.add 0) s _).1 (exec_add_of_zero_cell 0 s (hm 0))]
  rfl

/-- R22: the address space has an even number of cells, so the advance keeps PC even across its end too. -/
theorem toNat_add_two_even (a : Addr) (ha : a.toNat % 2 = 0) : (a + 2).toNat % 2 = 0 := by
  bv_omega

theorem isBreakpoint_of_bpt_nil (s : State) (h : s.bpt = []) : isBreakpoint s = false := by
  simp [isBreakpoint, h]

/-- By induction on the budget: the state after each step is again at an even PC over the same memory. -/
theorem run_of_zero_memory (n : Nat) (s : State) (hp : s.pc.toNat % 2 = 0) (hm : ∀ a : Addr, s.mem.read a = 0)
    (hb : s.bpt = []) :
    run n s = (.budgetExhausted, { s with pc := s.pc + BitVec.ofNat 8 (2 * n), cycles := s.cycles + n }) := by
  induction n generalizing s with
  | zero => simp [run]
  | succ n ih =>
    have hpc : s.pc + 2 + BitVec.ofNat 8 (2 * n) = s.pc + BitVec.ofNat 8 (2 * (n + 1)) := by
      rw [Nat.mul_succ, Nat.add_comm, BitVec.ofNat_add, BitVec.add_assoc]
      rfl
    rw [run_succ_of_no_breakpoint n s _ (step_of_zero_memory s hp hm) (isBreakpoint_of_bpt_nil _ hb),
      ih { s with pc := s.pc + 2, cycles := s.cycles + 1 } (toNat_add_two_even s.pc hp) hm hb]
    simp only [hpc, Nat.add_assoc, Nat.add_comm 1 n]

/-! ### A move of a block (R202, R231) -/

/-- A move is a write of the destination, then of the source with the free value. -/
theorem blocksCommand_move (b : Blocks) (src : Nat) (dst : Option Nat) (s : State) (k : Nat) (bs : List State)
    (hsrc : b.blocks[src]? = some s) (hput : putBlock b.blocks dst s = some (k, bs)) :
    blocksCommand (.move src dst) b =
      some (.block k, ⟨bs.set src (movedFromState (Config.movedFrom b.draws)), b.draws + 1⟩) := by
  simp only [blocksCommand, hsrc, hput]

theorem length_le_of_putBlock (bs cs : List State) (dst : Option Nat) (s : State) (k : Nat)
    (h : putBlock bs dst s = some (k, cs)) : bs.length ≤ cs.length := by
  obtain ⟨-, -, ⟨-, -, hlen⟩ | ⟨-, -, hlen⟩⟩ := putBlock_spec bs cs dst s k h <;> omega

/-- All that a move does, to a new block and over an existing one alike. The source is written last, so a move onto
itself leaves the free value. -/
theorem blocksCommand_move_spec (b : Blocks) (src : Nat) (dst : Option Nat) (s : State) (k : Nat) (bs : List State)
    (hsrc : b.blocks[src]? = some s) (hput : putBlock b.blocks dst s = some (k, bs)) :
    ∃ b' u, blocksCommand (.move src dst) b = some (.block k, b') ∧ b'.blocks.length = bs.length ∧
      (k ≠ src → b'.blocks[k]? = some s) ∧ b'.blocks[src]? = some u ∧ u.wf ∧
      ∀ j, j ≠ k → j ≠ src → b'.blocks[j]? = b.blocks[j]? := by
  obtain ⟨hdst, hothers, -⟩ := putBlock_spec b.blocks bs dst s k hput
  have hlt : src < bs.length :=
    (List.getElem?_eq_some_iff.1 hsrc).1.trans_le (length_le_of_putBlock b.blocks bs dst s k hput)
  refine ⟨_, _, blocksCommand_move b src dst s k bs hsrc hput, List.length_set, fun hk => ?_,
    List.getElem?_set_self hlt, movedFromState_wf _, fun j hjk hj => ?_⟩
  · exact (List.getElem?_set_ne hk.symm).trans hdst
  · exact (List.getElem?_set_ne hj.symm).trans (hothers j hjk)

/-! ### The obligations -/

/-- Settles O34: every step over all-zero memory is an `ADD 0` of a 0, and the reset state is at an even PC over such
memory, without breakpoints. -/
theorem runFromCreation : Obligations.RunFromCreation := by
  refine ⟨fun s hp hm => ⟨?_, step_of_zero_memory s hp hm, fun hb n => run_of_zero_memory n s hp hm hb⟩, fun n => ?_⟩
  · rw [fetchWord_of_zero_memory s hm, decode_encode]
  · rw [run_of_zero_memory n State.reset rfl (fun _ => rfl) rfl]
    simp [State.reset]

/-- Settles O38: a failure would be a fault at a state that is ready for its step. -/
theorem meetingObligationsAvoidsFailure : Obligations.MeetingObligationsAvoidsFailure := by
  intro n s h
  have hfail : ∀ f, (run n s).1 ≠ .failure f := fun f => run_ne_failure_of_meetsObligations n s f h
  have hsuccess := run_success_of_ne_failure n s hfail
  exact ⟨(ok_iff _).2 hsuccess, hsuccess, hfail⟩

/-- Settles O55: the move's two writes, to a new block, which is never the source, and to an existing one. -/
theorem moveGivesSourceState : Obligations.MoveGivesSourceState := by
  refine fun b src s hsrc => ⟨?_, fun k hk => ?_⟩
  · obtain ⟨hlt, -⟩ := List.getElem?_eq_some_iff.1 hsrc
    obtain ⟨b', u, hmove, -, hdst, hu, hwf, hothers⟩ :=
      blocksCommand_move_spec b src none s _ _ hsrc (putBlock_new b.blocks s)
    exact ⟨b', u, hmove, hdst hlt.ne', hu, hwf, fun j hj => hothers j hj.ne⟩
  · obtain ⟨b', u, hmove, hlen, hrest⟩ :=
      blocksCommand_move_spec b src (some k) s _ _ hsrc (putBlock_existing b.blocks k s hk)
    exact ⟨b', u, hmove, hlen.trans List.length_set, hrest⟩

/-- Settles O21: R200's table, and `create` puts a block in that state after the others. -/
theorem resetValues : Obligations.ResetValues :=
  ⟨rfl, rfl, fun _ => rfl, rfl, rfl, fun _ => rfl⟩

end Sys2Proof.Machine
end

section
/-! PROOFS. The host's interface (spec/80_host_interface.md): texts as lines and numbers, what a state file that loads
holds and which files do not load, what is saved, and the listing. -/

namespace Sys2Proof.Machine

/-! ### Lines and numbers (R223, R226, R229) -/

theorem joinLines_cons (l : Text) (ls : List Text) : joinLines (l :: ls) = l ++ lf :: joinLines ls := by
  simp [joinLines]

/-- R223: the last line may stand without an LF. -/
theorem splitLines_of_lf_notMem (l : Text) (hne : l ≠ []) (hl : lf ∉ l) : splitLines l = [l] := by
  induction l with
  | nil => exact absurd rfl hne
  | cons c l ih =>
    obtain ⟨hc, hlf⟩ : c ≠ lf ∧ lf ∉ l := by simpa [eq_comm] using hl
    cases l with
    | nil => simp [splitLines, hc]
    | cons d l =>
      rw [splitLines, if_neg hc, ih (by simp) hlf]

theorem digitChar_ne_zero (d : Nat) (hd : d < 10) (h0 : d ≠ 0) : Nat.digitChar d ≠ '0' := by
  interval_cases d <;> simp_all

/-- R226, R229: a printed number has no leading zero. -/
theorem decimal_eq_cons (n : Nat) (hn : n ≠ 0) : ∃ c ds, decimal n = c :: ds ∧ c ≠ '0' := by
  induction n using Nat.strong_induction_on with
  | _ n ih =>
    unfold decimal at *
    by_cases h : n < 10
    · exact ⟨_, [], Nat.toDigits_of_lt_base h, digitChar_ne_zero n h hn⟩
    · obtain ⟨c, ds, hds, hc⟩ := ih (n / 10) (by omega) (by omega)
      exact ⟨c, _, by rw [Nat.toDigits_of_base_le (by omega) (by omega), hds, List.cons_append], hc⟩

theorem isDigit_iff (c : Char) : isDigit c = true ↔ 0x30 ≤ c.toNat ∧ c.toNat ≤ 0x39 := by
  simp [isDigit]

theorem isDigit_of_mem_decimal (n : Nat) (c : Char) (hc : c ∈ decimal n) : isDigit c = true :=
  List.all_eq_true.1 (decimal_all_isDigit n) c hc

/-! ### The forms of a line in a state file (R223) -/

/-- R224: a byte of a file is a number below 256. -/
theorem parseByte_eq_some_iff (x : Text) (b : Byte) : parseByte x = some b ↔ parseNumber x = some b.toNat := by
  have hb : b.toNat < 256 := b.isLt
  cases h : parseNumber x with
  | none => simp [parseByte, h]
  | some n =>
    by_cases hn : n < 256
    · have hmod : n % 256 = n := Nat.mod_eq_of_lt hn
      simp [parseByte, h, hn, ← BitVec.toNat_inj, hmod]
    · have hne : n ≠ b.toNat := by omega
      simp [parseByte, h, hn, hne]

theorem exists_parseByte_iff (x : Text) : (∃ b, parseByte x = some b) ↔ ∃ n, parseNumber x = some n ∧ n ≤ 255 := by
  constructor
  · rintro ⟨b, hb⟩
    have hlt : b.toNat < 256 := b.isLt
    exact ⟨b.toNat, (parseByte_eq_some_iff x b).1 hb, by omega⟩
  · rintro ⟨n, hn, hle⟩
    have hmod : (BitVec.ofNat 8 n).toNat = n := Nat.mod_eq_of_lt (show n < 2 ^ 8 by omega)
    exact ⟨BitVec.ofNat 8 n, (parseByte_eq_some_iff x _).2 (by rw [hn, hmod])⟩

/-- The address of a breakpoint line ends at its first character that is no digit, so a space after digits ends it. -/
theorem parseEntry_number_space (d name : Text) (n : Nat) (hd : parseNumber d = some n) :
    parseEntry (d ++ ' ' :: name) = if n < 256 then some (n, name) else none := by
  obtain ⟨⟨-, hdigits⟩, -⟩ := (parseNumber_eq_some_iff d n).1 hd
  have hspace : isDigit ' ' = false := by decide
  have htake : (d ++ ' ' :: name).takeWhile isDigit = d := by
    rw [List.takeWhile_append_of_pos hdigits, List.takeWhile_cons_of_neg (by simp [hspace]), List.append_nil]
  have hdrop : (d ++ ' ' :: name).dropWhile isDigit = ' ' :: name := by
    rw [List.dropWhile_append_of_pos hdigits, List.dropWhile_cons_of_neg (by simp [hspace])]
  simp only [parseEntry, htake, hdrop, hd]
  rfl

/-- R223: a breakpoint line is a number below 256, one space and the name. -/
theorem parseEntry_eq_some_iff (l : Text) (n : Nat) (name : Text) : parseEntry l = some (n, name) ↔
    n < 256 ∧ ∃ d, parseNumber d = some n ∧ l = d ++ ' ' :: name := by
  constructor
  · intro h
    unfold parseEntry at h
    split at h
    · next k rest hk hrest =>
      split at h
      · next hlt =>
        cases h
        exact ⟨hlt, _, hk, by rw [← hrest, List.takeWhile_append_dropWhile]⟩
      · cases h
    · cases h
  · rintro ⟨hlt, d, hd, rfl⟩
    rw [parseEntry_number_space d name n hd, if_pos hlt]

/-- A reader of all lines is told by its reader of one line: it answers with what every line gives. -/
theorem readLines_eq_some_iff {β : Type} (read : Text → Option β) (readAll : List Text → Option (List β))
    (hnil : readAll [] = some [])
    (hcons : ∀ l ls, readAll (l :: ls) = (read l).bind fun y => (readAll ls).map (y :: ·))
    (ls : List Text) (ys : List β) : readAll ls = some ys ↔ ls.map read = ys.map some := by
  induction ls generalizing ys with
  | nil => cases ys <;> simp [hnil]
  | cons l ls ih =>
    rw [hcons, Option.bind_eq_some_iff, List.map_cons, eq_comm, List.map_eq_cons_iff]
    constructor
    · rintro ⟨y, hy, hys⟩
      obtain ⟨zs, hzs, rfl⟩ := Option.map_eq_some_iff.1 hys
      exact ⟨y, zs, rfl, hy.symm, ((ih zs).1 hzs).symm⟩
    · rintro ⟨y, zs, rfl, hy, hzs⟩
      exact ⟨y, hy.symm, by rw [(ih zs).2 hzs.symm, Option.map_some]⟩

theorem parseBytes_eq_some_iff (ls : List Text) (bs : List Byte) :
    parseBytes ls = some bs ↔ ls.map parseByte = bs.map some := by
  refine readLines_eq_some_iff parseByte parseBytes rfl (fun l ls => ?_) ls bs
  rw [parseBytes]
  cases parseByte l <;> cases parseBytes ls <;> rfl

theorem parseEntries_eq_some_iff (ls : List Text) (es : List (Nat × Text)) :
    parseEntries ls = some es ↔ ls.map parseEntry = es.map some := by
  refine readLines_eq_some_iff parseEntry parseEntries rfl (fun l ls => ?_) ls es
  rw [parseEntries]
  cases parseEntry l <;> cases parseEntries ls <;> rfl

/-- What one line gives, by its place. -/
theorem getElem?_bind_of_map_eq {β : Type} (read : Text → Option β) (ls : List Text) (ys : List β)
    (h : ls.map read = ys.map some) (k : Nat) : ls[k]?.bind read = ys[k]? := by
  have hk : ls[k]?.map read = ys[k]?.map some := by rw [← List.getElem?_map, h, List.getElem?_map]
  cases hl : ls[k]? <;> cases hy : ys[k]? <;> simp_all

theorem exists_map_eq_map_some {β : Type} (read : Text → Option β) (ls : List Text)
    (h : ∀ l ∈ ls, ∃ y, read l = some y) : ∃ ys : List β, ls.map read = ys.map some := by
  induction ls with
  | nil => exact ⟨[], rfl⟩
  | cons l ls ih =>
    obtain ⟨y, hy⟩ := h l (by simp)
    obtain ⟨ys, hys⟩ := ih fun m hm => h m (by simp [hm])
    exact ⟨y :: ys, by rw [List.map_cons, List.map_cons, hy, hys]⟩

/-- R224: every address that is read from breakpoint lines is in range. -/
theorem lt_of_mem_parseEntries (ls : List Text) (es : List (Nat × Text)) (h : parseEntries ls = some es) :
    ∀ e ∈ es, e.1 < 256 := by
  intro e he
  have hmem : some e ∈ ls.map parseEntry := by
    rw [(parseEntries_eq_some_iff ls es).1 h]
    exact List.mem_map_of_mem he
  obtain ⟨l, -, hl⟩ := List.mem_map.1 hmem
  exact ((parseEntry_eq_some_iff l e.1 e.2).1 hl).1

/-! ### Existence of memories and tables in canonical form (log entries 5 and 6) -/

/-- Whatever the 256 cells are to hold, some memory in canonical form holds it. -/
theorem Memory.exists_read_eq (f : Addr → Byte) : ∃ m : Memory, m.wf ∧ ∀ a, m.read a = f a := by
  refine ⟨Memory.ofBytes ((List.range 256).map fun k => f (BitVec.ofNat 8 k)), Memory.ofBytes_wf _, fun a => ?_⟩
  have ha : a.toNat < 256 := a.isLt
  rw [Memory.read_ofBytes]
  simp [ha]

/-- The table as R223's lines give it: R153's masking leaves an address below 256 as it is. -/
theorem mem_map_entryOf_iff (es : List (Nat × Text)) (hlt : ∀ e ∈ es, e.1 < 256) (d : Breakpoint) :
    d ∈ es.map (fun e => entryOf e.1 e.2) ↔ ∃ e ∈ es, d.address.toNat = e.1 ∧ d.name = e.2 := by
  simp only [List.mem_map]
  refine exists_congr fun e => and_congr_right fun he => ?_
  rw [eq_comm, eq_entryOf_iff, Nat.mod_eq_of_lt (hlt e he)]

/-- Two entries of a file that share neither an address nor a name. -/
def EntriesDiffer (d e : Nat × Text) : Prop := d.1 ≠ e.1 ∧ d.2 ≠ e.2

/-- R224's checks of the breakpoint lines as a whole are the invariants of R26: a legal table of exactly the given entries
exists where no two share an address or a name and they are not too many. -/
theorem exists_bptWf_perm_iff (es : List (Nat × Text)) (hlt : ∀ e ∈ es, e.1 < 256) :
    (∃ t, bptWf t ∧ t.Perm (es.map fun e => entryOf e.1 e.2)) ↔
      es.Pairwise EntriesDiffer ∧ es.length ≤ Config.bpCapacity := by
  constructor
  · rintro ⟨t, ht, hp⟩
    have ⟨_, hnames, hcap⟩ := ht
    have haddr := (hp.map Breakpoint.address).nodup_iff.1 (bptWf_addresses_nodup t ht)
    have hname := (hp.map Breakpoint.name).nodup_iff.1 hnames
    rw [List.map_map] at haddr hname
    refine ⟨((List.pairwise_map.1 haddr).and (List.pairwise_map.1 hname)).imp ?_, ?_⟩
    · rintro d e ⟨haddr, hname⟩
      exact ⟨fun h => haddr (congrArg maskAddress h), hname⟩
    · rw [← List.length_map, ← hp.length_eq]
      exact hcap
  · induction es with
    | nil => exact fun _ => ⟨[], bptWf_nil, List.Perm.refl _⟩
    | cons e es ih =>
      rintro ⟨hdiffer, hlen⟩
      obtain ⟨he, hes⟩ := List.pairwise_cons.1 hdiffer
      rw [List.length_cons] at hlen
      have hltes : ∀ d ∈ es, d.1 < 256 := fun d hd => hlt d (by simp [hd])
      obtain ⟨t, ht, hp⟩ := ih hltes ⟨hes, by omega⟩
      have hfree : conflicts t (entryOf e.1 e.2) = false := by
        refine conflicts_entryOf_eq_false t e.1 e.2 fun d hd => ?_
        obtain ⟨c, hc, haddr, hname⟩ := (mem_map_entryOf_iff es hltes d).1 (hp.mem_iff.1 hd)
        obtain ⟨hne, hnename⟩ := he c hc
        rw [haddr, hname, Nat.mod_eq_of_lt (hlt e (by simp))]
        exact ⟨hne.symm, hnename.symm⟩
      have hroom : t.length < Config.bpCapacity := by
        rw [hp.length_eq, List.length_map]
        omega
      exact ⟨placeEntry t (entryOf e.1 e.2),
        insertEntry_wf t _ _ ht ((insertEntry_ok t _ _).2 ⟨hfree, hroom, rfl⟩),
        (placeEntry_perm t _).trans (hp.cons _)⟩

/-! ### The state that a file's lines stand for (R223 to R225) -/

/-- The lines of a state file that holds `t`: each line gives its piece of `t`, and `t` is a state the host may observe. -/
structure FileHolds (ls : List Text) (t : State) : Prop where
  length : 259 ≤ ls.length
  cycles : ls[0]?.bind parseNumber = some t.cycles
  acc : ls[1]?.bind parseByte = some t.acc
  pc : ls[2]?.bind parseByte = some t.pc
  mem : ∀ a : Addr, ls[3 + a.toNat]?.bind parseByte = some (t.mem.read a)
  bpt : ∃ es, parseEntries (ls.drop 259) = some es ∧ t.bpt.Perm (es.map fun e => entryOf e.1 e.2)
  wf : t.wf

/-- R223: the place of each line in the file. -/
theorem parseStateLines_cons_eq_some_iff (l1 l2 l3 : Text) (rest : List Text) (t : State) :
    parseStateLines (l1 :: l2 :: l3 :: rest) = some t ↔
      parseNumber l1 = some t.cycles ∧ parseByte l2 = some t.acc ∧ parseByte l3 = some t.pc ∧
      (∃ bs, parseBytes (rest.take Config.memSize) = some bs ∧ bs.length = Config.memSize ∧
        t.mem = Memory.ofBytes bs) ∧
      ∃ es, parseEntries (rest.drop Config.memSize) = some es ∧ insertAll [] es = .ok t.bpt := by
  constructor
  · intro h
    simp only [parseStateLines] at h
    split at h
    · next cycles acc pc bs es h1 h2 h3 hbs hes =>
      split at h
      · next hlen =>
        split at h
        · next b hb =>
          cases h
          exact ⟨h1, h2, h3, ⟨bs, hbs, hlen, rfl⟩, es, hes, hb⟩
        · cases h
      · cases h
    · cases h
  · rintro ⟨h1, h2, h3, ⟨bs, hbs, hlen, hmem⟩, es, hes, hb⟩
    simp only [parseStateLines, h1, h2, h3, hbs, hes, hlen, if_true, hb, ← hmem]

/-- R223: the memory lines give `m` exactly when they give its 256 bytes in address order. -/
theorem memoryLines_iff (ls : List Text) (m : Memory) (hm : m.wf) :
    (∃ bs, parseBytes (ls.take Config.memSize) = some bs ∧ bs.length = Config.memSize ∧ m = Memory.ofBytes bs) ↔
      ∀ a : Addr, ls[a.toNat]?.bind parseByte = some (m.read a) := by
  constructor
  · rintro ⟨bs, hbs, hlen, rfl⟩ a
    have ha : a.toNat < Config.memSize := a.isLt
    have hline := getElem?_bind_of_map_eq parseByte _ bs ((parseBytes_eq_some_iff _ bs).1 hbs) a.toNat
    rw [List.getElem?_take_of_lt ha] at hline
    rw [hline, Memory.read_ofBytes, List.getElem?_eq_getElem (hlen ▸ ha), Option.getD_some]
  · intro h
    refine ⟨m.bytes, (parseBytes_eq_some_iff _ _).2 (List.ext_getElem? fun k => ?_), m.length_bytes,
      (Memory.ofBytes_bytes m hm).symm⟩
    by_cases hk : k < Config.memSize
    · have hmod : (BitVec.ofNat 8 k).toNat = k := Nat.mod_eq_of_lt hk
      obtain ⟨l, hl, hbyte⟩ := Option.bind_eq_some_iff.1 (h (BitVec.ofNat 8 k))
      rw [hmod] at hl
      simp [List.getElem?_take_of_lt hk, hl, hbyte, Memory.bytes, hk]
    · simp [Memory.bytes, hk]

/-- R223, R225 said once: the lines parse to `t` exactly when they hold it. -/
theorem parseStateLines_eq_some_iff (ls : List Text) (t : State) : parseStateLines ls = some t ↔ FileHolds ls t := by
  match ls with
  | [] | [_] | [_, _] =>
    exact ⟨fun h => (nomatch h), fun h => absurd h.length (by simp)⟩
  | l1 :: l2 :: l3 :: rest =>
    constructor
    · intro h
      have hwf := parseStateLines_wf _ t h
      obtain ⟨h1, h2, h3, hmem, es, hes, hb⟩ := (parseStateLines_cons_eq_some_iff l1 l2 l3 rest t).1 h
      have hcells := (memoryLines_iff rest t.mem hwf.1).1 hmem
      obtain ⟨-, hperm⟩ := (insertAll_ok_iff es [] t.bpt bptWf_nil).1 hb
      refine ⟨?_, h1, h2, h3, fun a => ?_, ⟨es, hes, hperm⟩, hwf⟩
      · obtain ⟨l, hl, -⟩ := Option.bind_eq_some_iff.1 (hcells 255)
        obtain ⟨hlt, -⟩ := List.getElem?_eq_some_iff.1 hl
        simp only [List.length_cons]
        have h255 : (255 : Addr).toNat = 255 := rfl
        omega
      · rw [Nat.add_comm]
        exact hcells a
    · rintro ⟨-, h1, h2, h3, hmem, ⟨es, hes, hperm⟩, hwf⟩
      refine (parseStateLines_cons_eq_some_iff l1 l2 l3 rest t).2
        ⟨h1, h2, h3, (memoryLines_iff rest t.mem hwf.1).2 fun a => ?_, es, hes,
          (insertAll_ok_iff es [] t.bpt bptWf_nil).2 ⟨hwf.2, hperm⟩⟩
      rw [← hmem a, Nat.add_comm]
      rfl

/-- R224, R225: a file loads to exactly the state that its lines hold. -/
theorem loadState_eq_ok_iff (x : Text) (t : State) : loadState (some x) = .ok t ↔ FileHolds (splitLines x) t := by
  rw [← parseStateLines_eq_some_iff]
  cases h : parseStateLines (splitLines x) <;> simp [loadState, h]

/-- R224: a file whose lines hold no state is refused. -/
theorem loadState_of_not_fileHolds (x : Text) (h : ∀ t, ¬ FileHolds (splitLines x) t) :
    loadState (some x) = .error .persistenceError := by
  have hnone : parseStateLines (splitLines x) = none :=
    Option.eq_none_iff_forall_ne_some.2 fun t ht => h t ((parseStateLines_eq_some_iff _ t).1 ht)
  simp [loadState, hnone]

theorem command_loadState_of_ok (draw : Nat) (file : Option Text) (s t : State) (h : loadState file = .ok t) :
    command draw (.loadState file) s = (.ok, t) := by
  rw [command, h, commit]

theorem command_loadState_of_error (draw : Nat) (file : Option Text) (s : State) (f : CommandFailure)
    (h : loadState file = .error f) : command draw (.loadState file) s = (.failed f, s) := by
  rw [command, h, commit]

/-- Lines 2 to 259 of a file that loads are bytes. -/
theorem FileHolds.exists_byte {ls : List Text} {t : State} (h : FileHolds ls t) (k : Nat) (h1 : 1 ≤ k) (hk : k < 259) :
    ∃ b, ls[k]?.bind parseByte = some b := by
  by_cases h3 : 3 ≤ k
  · have haddr : 3 + (BitVec.ofNat 8 (k - 3)).toNat = k := by
      rw [BitVec.toNat_ofNat]
      omega
    exact ⟨_, haddr ▸ h.mem (BitVec.ofNat 8 (k - 3))⟩
  · obtain rfl | rfl : k = 1 ∨ k = 2 := by omega
    · exact ⟨t.acc, h.acc⟩
    · exact ⟨t.pc, h.pc⟩

/-- Every line up to the 259th of a file that loads is a number, and all but the first are at most 255. -/
theorem FileHolds.number_of_line {ls : List Text} {t : State} (h : FileHolds ls t) (k : Nat) (l : Text) (hk : k < 259)
    (hl : ls[k]? = some l) : ∃ n, parseNumber l = some n ∧ (1 ≤ k → n ≤ 255) := by
  rcases Nat.eq_zero_or_pos k with rfl | h1
  · have hcycles := h.cycles
    rw [hl, Option.bind_some] at hcycles
    exact ⟨t.cycles, hcycles, fun h0 => absurd h0 (by omega)⟩
  · have hbyte := h.exists_byte k h1 hk
    simp only [hl, Option.bind_some, exists_parseByte_iff] at hbyte
    obtain ⟨n, hn, hle⟩ := hbyte
    exact ⟨n, hn, fun _ => hle⟩

/-- The lines after the 259th of a file that loads: breakpoint lines that pass R224's checks. -/
theorem FileHolds.entries {ls : List Text} {t : State} (h : FileHolds ls t) :
    ∃ es : List (Nat × Text), (ls.drop 259).map parseEntry = es.map some ∧ es.Pairwise EntriesDiffer ∧
      es.length ≤ Config.bpCapacity := by
  obtain ⟨es, hes, hperm⟩ := h.bpt
  exact ⟨es, (parseEntries_eq_some_iff _ es).1 hes,
    (exists_bptWf_perm_iff es (lt_of_mem_parseEntries _ es hes)).1 ⟨t.bpt, h.wf.2, hperm⟩⟩

theorem FileHolds.exists_entry {ls : List Text} {t : State} (h : FileHolds ls t) (l : Text) (hl : l ∈ ls.drop 259) :
    ∃ e, parseEntry l = some e := by
  obtain ⟨es, hes, -⟩ := h.entries
  have hmem : parseEntry l ∈ es.map some := hes ▸ List.mem_map_of_mem hl
  obtain ⟨e, -, he⟩ := List.mem_map.1 hmem
  exact ⟨e, he.symm⟩

theorem entriesDiffer_of_pairwise (es : List (Nat × Text)) (h : es.Pairwise EntriesDiffer) (i j : Nat) (d e : Nat × Text)
    (hij : i < j) (hd : es[i]? = some d) (he : es[j]? = some e) : EntriesDiffer d e := by
  obtain ⟨hi, rfl⟩ := List.getElem?_eq_some_iff.1 hd
  obtain ⟨hj, rfl⟩ := List.getElem?_eq_some_iff.1 he
  exact List.pairwise_iff_getElem.1 h i j hi hj hij

/-- R224: a file that passes every check of its lines holds a state. -/
theorem exists_fileHolds (ls : List Text) (hlen : 259 ≤ ls.length) (hcycles : ∃ n, ls[0]?.bind parseNumber = some n)
    (hbytes : ∀ k, 1 ≤ k → k < 259 → ∃ b, ls[k]?.bind parseByte = some b) (es : List (Nat × Text))
    (hes : parseEntries (ls.drop 259) = some es) (hdiffer : es.Pairwise EntriesDiffer)
    (hcap : es.length ≤ Config.bpCapacity) : ∃ t, FileHolds ls t := by
  obtain ⟨cycles, hcycles⟩ := hcycles
  obtain ⟨acc, hacc⟩ := hbytes 1 (by omega) (by omega)
  obtain ⟨pc, hpc⟩ := hbytes 2 (by omega) (by omega)
  have hcell : ∀ a : Addr, ∃ b, ls[3 + a.toNat]?.bind parseByte = some b := fun a =>
    hbytes (3 + a.toNat) (by omega) (by have ha : a.toNat < 256 := a.isLt; omega)
  choose cell hcell using hcell
  obtain ⟨m, hm, hread⟩ := Memory.exists_read_eq cell
  obtain ⟨t, ht, hperm⟩ := (exists_bptWf_perm_iff es (lt_of_mem_parseEntries _ es hes)).2 ⟨hdiffer, hcap⟩
  exact ⟨⟨acc, pc, m, cycles, t⟩, hlen, hcycles, hacc, hpc, fun a => hread a ▸ hcell a, ⟨es, hes, hperm⟩, hm, ht⟩

/-! ### What a save writes (R226, R227) -/

/-- Whichever place is to be picked, some index picks it. -/
theorem exists_pick_eq {α : Type} (y x : α) (xs : List α) (hy : y ∈ x :: xs) :
    ∃ i < xs.length + 1, (pick i x xs).1 = y := by
  induction xs generalizing x with
  | nil => exact ⟨0, by simp, (List.mem_singleton.1 hy).symm⟩
  | cons z zs ih =>
    rcases List.mem_cons.1 hy with rfl | hz
    · exact ⟨0, by simp, rfl⟩
    · obtain ⟨i, hi, hpick⟩ := ih z hz
      exact ⟨i + 1, by rw [List.length_cons]; omega, hpick⟩

/-- Every order of a list is some choice's (K4): the remainder picks the first element, the quotient orders the rest. -/
theorem exists_arrange_eq {α : Type} (ys xs : List α) (h : ys.Perm xs) : ∃ choice, arrange xs.length choice xs = ys := by
  induction ys generalizing xs with
  | nil => exact ⟨0, by rw [← h.nil_eq]; rfl⟩
  | cons y ys ih =>
    cases xs with
    | nil => exact absurd h.length_eq (by simp)
    | cons x xs =>
      obtain ⟨i, hi, rfl⟩ := exists_pick_eq y x xs (h.mem_iff.1 (by simp))
      have hrest : ys.Perm (pick i x xs).2 := (h.trans (pick_perm i x xs).symm).cons_inv
      have hlen : (pick i x xs).2.length = xs.length := by
        have := (pick_perm i x xs).length_eq
        simp only [List.length_cons] at this
        omega
      obtain ⟨choice, hchoice⟩ := ih _ hrest
      rw [hlen] at hchoice
      refine ⟨i + (xs.length + 1) * choice, ?_⟩
      have hmod : (i + (xs.length + 1) * choice) % (xs.length + 1) = i := by
        rw [Nat.add_mul_mod_self_left, Nat.mod_eq_of_lt hi]
      have hdiv : (i + (xs.length + 1) * choice) / (xs.length + 1) = choice := by
        rw [Nat.add_mul_div_left _ _ (by omega), Nat.div_eq_of_lt hi, Nat.zero_add]
      rw [List.length_cons, arrange, hmod, hdiv, hchoice]

theorem length_stateLines (s : State) : (stateLines s).length = 259 := by
  simp [stateLines, Memory.length_bytes, Config.memSize]

/-- R223: line 4 + a is the cell a. -/
theorem stateLines_cell (s : State) (a : Addr) : (stateLines s)[3 + a.toNat]? = some (decimal (s.mem.read a).toNat) := by
  have ha : a.toNat < Config.memSize := a.isLt
  simp [stateLines, Nat.add_comm 3, Memory.bytes, ha]

theorem lf_notMem_stateLines (s : State) : ∀ l ∈ stateLines s, lf ∉ l := by
  intro l hl
  have hdecimal : ∃ n, l = decimal n := by
    simp only [stateLines, List.mem_append, List.mem_cons, List.not_mem_nil, or_false, List.mem_map] at hl
    rcases hl with (rfl | rfl | rfl) | ⟨b, -, rfl⟩ <;> exact ⟨_, rfl⟩
  obtain ⟨n, rfl⟩ := hdecimal
  exact lf_notMem_decimal n

theorem lf_notMem_entryLine (e : Breakpoint) (he : lf ∉ e.name) : lf ∉ entryLine e := by
  have hspace : lf ≠ ' ' := by decide
  simp [entryLine, lf_notMem_decimal, hspace, he]

/-- The lines of a saved file, with the breakpoint lines in the given order, split back (R223). -/
theorem splitLines_saved (s : State) (es : List Breakpoint) (hlf : ∀ e ∈ es, lf ∉ e.name) :
    splitLines (joinLines (stateLines s ++ es.map entryLine)) = stateLines s ++ es.map entryLine := by
  refine splitLines_joinLines _ fun l hl => ?_
  rcases List.mem_append.1 hl with hstate | hentry
  · exact lf_notMem_stateLines s l hstate
  · obtain ⟨e, he, rfl⟩ := List.mem_map.1 hentry
    exact lf_notMem_entryLine e (hlf e he)

/-- R226: a name with an LF cannot be carried. -/
theorem any_hasLf_iff (t : List Breakpoint) : (t.any fun e => hasLf e.name) = true ↔ ∃ e ∈ t, lf ∈ e.name := by
  simp [hasLf]

theorem saveState_of_error (writable : Bool) (choice : Nat) (s : State)
    (h : writable = false ∨ ∃ e ∈ s.bpt, lf ∈ e.name) : saveState writable choice s = .error .persistenceError := by
  rw [saveState, if_pos]
  rwa [Bool.or_eq_true, Bool.not_eq_true', any_hasLf_iff]

theorem saveState_of_ok (choice : Nat) (s : State) (h : ∀ e ∈ s.bpt, lf ∉ e.name) :
    saveState true choice s =
      .ok (joinLines (stateLines s ++ (arrange s.bpt.length choice s.bpt).map entryLine)) := by
  rw [saveState, if_neg]
  rw [Bool.or_eq_true, any_hasLf_iff]
  rintro (hw | ⟨e, he, hlf⟩)
  · cases hw
  · exact h e he hlf

/-- R227: the written lines hold the state, in whatever order the breakpoint lines stand. -/
theorem fileHolds_saved (s : State) (hs : s.wf) (es : List Breakpoint) (hes : es.Perm s.bpt) :
    FileHolds (stateLines s ++ es.map entryLine) s := by
  have hlen := length_stateLines s
  have hline : ∀ k < 259, (stateLines s ++ es.map entryLine)[k]? = (stateLines s)[k]? := fun k hk =>
    List.getElem?_append_left (hlen ▸ hk)
  have hentry : ∀ e : Breakpoint, entryOf e.address.toNat e.name = e := fun e =>
    ((eq_entryOf_iff e e.address.toNat e.name).2 ⟨toNat_eq_toNat_mod e.address, rfl⟩).symm
  have htable : s.bpt.Perm ((es.map fun e => (e.address.toNat, e.name)).map fun e => entryOf e.1 e.2) := by
    rw [List.map_map]
    simpa only [Function.comp_def, hentry, List.map_id'] using hes.symm
  exact {
    length := by
      rw [List.length_append, hlen]
      exact Nat.le_add_right _ _
    cycles := by
      rw [hline 0 (by omega)]
      exact parseNumber_decimal s.cycles
    acc := by
      rw [hline 1 (by omega)]
      exact parseByte_decimal s.acc
    pc := by
      rw [hline 2 (by omega)]
      exact parseByte_decimal s.pc
    mem := fun a => by
      have ha : a.toNat < 256 := a.isLt
      rw [hline _ (by omega), stateLines_cell]
      exact parseByte_decimal (s.mem.read a)
    bpt := ⟨_, by rw [List.drop_left' hlen, parseEntries_entryLine], htable⟩
    wf := hs }

theorem command_saveState (draw : Nat) (writable : Bool) (s : State) :
    command draw (.saveState writable) s = saveCommand draw writable s := rfl

/-! ### The listing (R228, R229) -/

theorem listingLine_of_invalid (p : Addr) (w : InstructionWord) (ob : Byte) (h : decode w = .invalid ob) :
    listingLine p w = slotFields p w := by
  rw [listingLine, h]

theorem listingLine_of_instr (p : Addr) (w : InstructionWord) (i : Instr) (h : decode w = .instr i) :
    listingLine p w = slotFields p w ++
      if w.opcode = 0 ∧ w.operandAddress = 0 then [] else [tab, ':', tab] ++ rendering i.opcode := by
  simp only [listingLine, h]
  split
  · rw [List.append_nil]
  · rfl

theorem lf_notMem_rendering (op : Opcode) : lf ∉ rendering op := by
  cases op <;> decide

theorem lf_notMem_slotFields (p : Addr) (w : InstructionWord) : lf ∉ slotFields p w := by
  have htab : lf ≠ tab := by decide
  simp [slotFields, lf_notMem_decimal, htab]

theorem lf_notMem_listingLine (p : Addr) (w : InstructionWord) : lf ∉ listingLine p w := by
  cases h : decode w with
  | invalid ob =>
    rw [listingLine_of_invalid p w ob h]
    exact lf_notMem_slotFields p w
  | instr i =>
    have htab : lf ≠ tab := by decide
    have hcolon : lf ≠ ':' := by decide
    rw [listingLine_of_instr p w i h]
    split <;> simp [lf_notMem_slotFields, lf_notMem_rendering, htab, hcolon]

/-- R229: no line of the listing holds an LF, so its lines are the slots'. -/
theorem splitLines_printProgram (s : State) : splitLines (printProgram s) = listingLines s := by
  refine splitLines_joinLines _ fun l hl => ?_
  obtain ⟨k, -, rfl⟩ := List.mem_map.1 hl
  exact lf_notMem_listingLine _ _

theorem toNat_slotAddress (k : Nat) (hk : k < 128) : (slotAddress k).toNat = 2 * k :=
  Nat.mod_eq_of_lt (show 2 * k < 2 ^ 8 by omega)

theorem getElem?_listingLines (s : State) (k : Nat) (hk : k < 128) :
    (listingLines s)[k]? = some (listingLine (slotAddress k) (slotWord s (slotAddress k))) := by
  have hslot : k < Config.numSlots := hk
  simp [listingLines, hslot]

/-! ### The obligations -/

/-- Settles O49: the lines of a save hold the state in every order, and every order is arranged by some choice. -/
theorem saveThenLoadRestoresState : Obligations.SaveThenLoadRestoresState := by
  intro s hs hlf
  refine ⟨fun choice => ⟨_, saveState_of_ok choice s hlf, fun draw u => ?_⟩, fun es hes => ?_⟩
  · have hperm := arrange_perm s.bpt.length choice s.bpt
    refine command_loadState_of_ok draw _ u s ((loadState_eq_ok_iff _ s).2 ?_)
    rw [splitLines_saved s _ fun e he => hlf e (hperm.mem_iff.1 he)]
    exact fileHolds_saved s hs _ hperm
  · obtain ⟨choice, rfl⟩ := exists_arrange_eq es s.bpt hes
    exact ⟨choice, saveState_of_ok choice s hlf⟩

/-- Settles O50: a file loads to exactly the state that its lines hold, and lines that pass the checks hold one. -/
theorem loadCommitsFile : Obligations.LoadCommitsFile := by
  refine ⟨fun x t h => ?_, fun x hlen hcycles hbytes hentries hdiffer hcap => ?_⟩
  · obtain ⟨hlen, hcycles, hacc, hpc, hmem, ⟨es, hes, hperm⟩, hwf⟩ := (loadState_eq_ok_iff x t).1 h
    refine ⟨hlen, hcycles, hacc, hpc, hmem, ⟨es, hes, ?_, fun d => ?_⟩, hwf, fun draw u =>
      command_loadState_of_ok draw _ u t h⟩
    · rw [hperm.length_eq, List.length_map]
    · rw [hperm.mem_iff, mem_map_entryOf_iff es (lt_of_mem_parseEntries _ es hes)]
  · obtain ⟨es, hmap⟩ := exists_map_eq_map_some parseEntry _ hentries
    have hline := getElem?_bind_of_map_eq parseEntry _ es hmap
    have hes := (parseEntries_eq_some_iff _ es).2 hmap
    have hpairwise : es.Pairwise EntriesDiffer := List.pairwise_iff_getElem.2 fun i j hi hj hij =>
      hdiffer i j es[i] es[j] hij (by rw [hline, List.getElem?_eq_getElem hi])
        (by rw [hline, List.getElem?_eq_getElem hj])
    have hlength : es.length = ((splitLines x).drop 259).length := by simpa using (congrArg List.length hmap).symm
    have hbyte : ∀ k, 1 ≤ k → k < 259 → ∃ b, (splitLines x)[k]?.bind parseByte = some b := fun k h1 hk => by
      obtain ⟨n, hn, hle⟩ := hbytes k h1 hk
      obtain ⟨l, hl, hnumber⟩ := Option.bind_eq_some_iff.1 hn
      rw [hl]
      exact (exists_parseByte_iff l).2 ⟨n, hnumber, hle⟩
    obtain ⟨t, ht⟩ := exists_fileHolds (splitLines x) hlen hcycles hbyte es hes hpairwise (hlength ▸ hcap)
    exact ⟨t, (loadState_eq_ok_iff x t).2 ht⟩

/-- Settles O51: each kind of bad file breaks what every file that loads holds. -/
theorem loadRefusesBadFiles : Obligations.LoadRefusesBadFiles := by
  refine ⟨rfl, fun l n => ?_, parseEntry_eq_some_iff, fun draw file s => command_loadState_of_error draw file s _,
    fun x => ?_⟩
  · simp only [parseNumber_eq_some_iff, isDigit_iff, and_assoc]
    exact and_congr_right fun _ => and_congr_right fun _ => eq_comm
  have refuse := loadState_of_not_fileHolds x
  refine ⟨fun hlen => refuse fun t ht => ?_, fun k l hk hl hnone => refuse fun t ht => ?_,
    fun k l n h1 hk hl hn hbig => refuse fun t ht => ?_, fun l hl hnone => refuse fun t ht => ?_,
    fun l hl d name n hform hd hbig => refuse fun t ht => ?_,
    fun i j l m d e hij hl hm hd he hshare => refuse fun t ht => ?_, fun hcap => refuse fun t ht => ?_⟩
  · exact absurd ht.length (by omega)
  · obtain ⟨n, hn, -⟩ := ht.number_of_line k l hk hl
    simp [hn] at hnone
  · obtain ⟨n', hn', hle⟩ := ht.number_of_line k l hk hl
    obtain rfl : n = n' := Option.some.inj (hn.symm.trans hn')
    exact absurd (hle h1) (by omega)
  · obtain ⟨e, he⟩ := ht.exists_entry l hl
    simp [he] at hnone
  · obtain ⟨e, he⟩ := ht.exists_entry l hl
    rw [hform, parseEntry_number_space d name n hd, if_neg (by omega)] at he
    cases he
  · obtain ⟨es, hes, hdiffer, -⟩ := ht.entries
    have hline := getElem?_bind_of_map_eq parseEntry _ es hes
    obtain ⟨haddr, hname⟩ := entriesDiffer_of_pairwise es hdiffer i j d e hij
      (by rw [← hline, hl, Option.bind_some, hd]) (by rw [← hline, hm, Option.bind_some, he])
    exact hshare.elim haddr hname
  · obtain ⟨es, hes, -, hle⟩ := ht.entries
    have hlength : ((splitLines x).drop 259).length = es.length := by simpa using congrArg List.length hes
    omega

/-- Settles O52: the lines of a save hold no LF but the ones that end them. -/
theorem saveWritesStateFile : Obligations.SaveWritesStateFile := by
  refine ⟨fun draw writable s => ⟨Config.saveOrder draw, ?_⟩, fun writable choice s =>
    ⟨saveState_of_error writable choice s, fun hw hlf => ?_, fun draw => saveCommand_state draw writable s⟩⟩
  · rw [command_saveState, saveCommand]
    cases saveState writable (Config.saveOrder draw) s <;> rfl
  · subst hw
    have hperm := arrange_perm s.bpt.length choice s.bpt
    have hsplit := splitLines_saved s _ fun e he => hlf e (hperm.mem_iff.1 he)
    exact ⟨_, _, saveState_of_ok choice s hlf, by rw [hsplit], hperm, hsplit, length_stateLines s, rfl, rfl, rfl,
      stateLines_cell s⟩

/-- Settles O53: the listing's lines are the slots', and slot k is at address 2k. -/
theorem listingHasEverySlot : Obligations.ListingHasEverySlot := by
  refine ⟨rfl, rfl, rfl, rfl, rfl, rfl, rfl, rfl, fun s => ?_⟩
  rw [splitLines_printProgram]
  refine ⟨by simp [listingLines, Config.numSlots, Config.memSize, Config.instrBytes], rfl, fun _ => rfl, fun k hk =>
    ⟨slotAddress k, toNat_slotAddress k hk, ?_⟩⟩
  rw [getElem?_listingLines s k hk, slotWord, memRead_eq, memRead_eq]
  cases hd : decode ⟨s.mem.read (slotAddress k), s.mem.read (slotAddress k + 1)⟩ with
  | invalid ob =>
    rw [listingLine_of_invalid _ _ ob hd, slotFields]
    simp
  | instr i =>
    rw [listingLine_of_instr _ _ i hd, slotFields]
    simp

/-- Settles O59: lines by recursion on the text, digits by the recursion of the decimal form. -/
theorem linesAndNumbersOfTexts : Obligations.LinesAndNumbersOfTexts := by
  refine ⟨rfl, rfl, rfl, splitLines_line_append, splitLines_of_lf_notMem, rfl, joinLines_cons, rfl, fun n hn => ?_⟩
  exact ⟨decimal_eq_cons n hn, fun c hc => (isDigit_iff c).1 (isDigit_of_mem_decimal n c hc), digitsValue_decimal n⟩

/-- Settles O47: `read_mem` masks its argument mod 256, and the other accessors answer with the piece itself. -/
theorem accessorsReadState : Obligations.AccessorsReadState := by
  intro draw n s
  have hmask : maskAddress n = BitVec.ofNat 8 (n % 256) :=
    ((eq_maskAddress_iff _ n).2 (by rw [BitVec.toNat_ofNat]; omega)).symm
  refine ⟨rfl, rfl, rfl, rfl, ?_⟩
  rw [command, memRead_eq, hmask]

end Sys2Proof.Machine
end

section
/-! PROOFS. The spec's decode vectors (spec/95_test_vectors.md 2.2 to 2.4), as instances of the two laws of R63 and R64. -/

namespace Sys2Proof.Machine

/-- Settles O4: each legal word is an opcode's byte with an address byte (R63), and each other word has an opcode byte of 8
or more (R64). -/
theorem sampleWordsDecode : Obligations.SampleWordsDecode := by
  have hinvalid : ∀ ob ab : Byte, 8 ≤ ob.toNat → decode ⟨ob, ab⟩ = .invalid ob := fun ob ab => decode_of_illegal ⟨ob, ab⟩
  exact ⟨decode_opcode_byte .add 0, decode_opcode_byte .jne 255, decode_opcode_byte .jmp 1,
    hinvalid 0x08 0x00 (by decide), hinvalid 0xFF 0xFF (by decide), hinvalid 0x80 0x10 (by decide),
    decode_opcode_byte .ldr 255, decode_opcode_byte .jmp 64,
    decode_opcode_byte .ldr 0x80, decode_opcode_byte .str 0x40⟩

end Sys2Proof.Machine
end
